-- ==== Sys2Proof/Word.lean ====
section
/-! DEFINITION. The words the block is built from: register words, half-width fields, rule numbers, window offsets and
bit sequences (spec/00_scope.md R9, R11, R12; spec/20_memory.md R40). -/

namespace Sys2Proof

/-- One 32-bit register word, the width of every host access (R9, R45). -/
abbrev Word := BitVec 32

/-- A 16-bit field: A_LEN, B_LEN, NRULES, a rule slot, EVAL's RULE field (R9). -/
abbrev HalfWord := BitVec 16

/-- The eight lookup bits of a legal RuleID (R73). -/
abbrev RuleId := BitVec 8

/-- A byte offset in the 16 KiB register window, 0x0000 to 0x3FFF (R40, R41). -/
abbrev Offset := BitVec 14

/-- A BitSequence: its length is `n`, position 0 stands first (R12). -/
abbrev BitSeq := List Bool

end Sys2Proof
end

