-- ==== Sys2Proof/Config.lean ====
section
/-! DEFINITION. What one hardware block fixes (the size parameters NW and RMAX, the platform's window base) and the values
the spec leaves free (R7, R8, R10, R41, R45, R51). A free value is an opaque constant: nothing can be proved about it. -/

namespace Sys2Proof

/-- The size parameters of a hardware block (R7, R8, decision D3). State carries them, so that a claim about every state
is a claim about every size. -/
structure Params where
  /-- NW, the 32-bit data words of one sequence (R7). -/
  nw : Nat
  /-- RMAX, the rule slots (R8). -/
  rmax : Nat
deriving DecidableEq, Repr

/-- NMAX = 32 * NW, the longest sequence in bits (R7). -/
def Params.nmax (p : Params) : Nat := 32 * p.nw

/-- The legal sizes: 1 <= NW <= 1024 (R7) and 3 <= RMAX <= 256 (R8). -/
def Params.legal (p : Params) : Bool :=
  decide (1 ≤ p.nw) && decide (p.nw ≤ 1024) && decide (3 ≤ p.rmax) && decide (p.rmax ≤ 256)

/-- The sizes `State.reset` is written for: the spec's own test configuration, NW = 2 and RMAX = 4
(spec/95_test_vectors.md). DESIGN CHOICE, log entry 2. -/
def Config.referenceParams : Params := { nw := 2, rmax := 4 }

/-- Where the platform places the window (R41). The block never sees it: it decodes the byte offset only. -/
structure Platform where
  /-- BASE, the address of window offset 0. -/
  base : Nat
deriving DecidableEq, Repr

/-- BASE is aligned to 16 KiB (R41). -/
def Platform.legal (p : Platform) : Bool := decide (p.base % 0x4000 = 0)

/-- LATENCY: the cycles from a command's acceptance to its completion, any finite number chosen afresh for each command
(R10), here applied to the count of free values drawn so far. Free value, log entry 4. -/
opaque Config.latency : Nat → Nat

/-- What a host read of A_DATA or B_DATA returns while BUSY = 1: an unspecified word (R51). Free value, log entry 5. -/
opaque Config.busyRead : Nat → Word

/-- How the host's bus selects the bits of a narrower read (R45), a parameter of the platform. -/
inductive BusLanes where
  /-- The bus numbers byte lanes, lane `m` carrying bits `[8m+7:8m]` (R49). -/
  | numbered
  /-- The bus selects bits of its own choosing. -/
  | other
deriving DecidableEq, Repr

/-- Which bit of the word stands at position `i` of a narrower read of `n` bits at an offset, where R49 numbers no lane for
it: `Config.selectedBit off n i`, the bus's choice (R45). Free value, log entry 7. -/
opaque Config.selectedBit : Offset → Nat → Nat → Fin 32

end Sys2Proof
end

