-- ==== Sys2Proof/Syntax.lean ====
section
/-! DEFINITION. The block's commands, one constructor for each row of spec/opcode_table.json (R64, R76, R91). -/

namespace Sys2Proof

/-- A command the block can run. A CMD word that encodes neither is ILLEGAL and has no term here (R65, R68). -/
inductive Instr where
  /-- EVAL (R76): one rule on one neighbourhood. `rule` is the whole 16-bit field; values above 255 decode and are
  rejected when the command runs (R62). -/
  | eval (rule : HalfWord) (left center right : Bool)
  /-- ENCODE (R91): the multi-round transform of A_DATA and B_DATA; all its operands are registers (R63). -/
  | encode
deriving DecidableEq, Repr

end Sys2Proof
end

