-- ==== Sys2Proof/WellFormed.lean ====
section
/-! DEFINITION. Which commands are well formed. A term of `Instr` always is, since its fields have the encoding's widths
(R61); a command as an assembler reads it has numbers for operands, and R69 says which of them the assembler rejects. -/

namespace Sys2Proof

/-- Every value of every field of a command fits its encoding (R61, R62), so no term is ill formed. -/
def Instr.wellFormed : Instr → Bool
  | .eval _ _ _ _ => true
  | .encode => true

/-- A command as it is written for the assembler (R69), its operands plain numbers. -/
inductive SourceCommand where
  /-- `EVAL rule, left, center, right`. -/
  | eval (rule left center right : Nat)
  /-- `EVAL rule, idx`. -/
  | evalIdx (rule idx : Nat)
  /-- `ENCODE`. -/
  | encode
deriving DecidableEq, Repr

/-- The assembler's check (R69): a `rule` above 65535, a neighbour bit other than 0 or 1, or an `idx` above 7 does not fit.
A `rule` of 256 to 65535 is accepted; the block rejects it when the command runs. -/
def SourceCommand.wellFormed : SourceCommand → Bool
  | .eval rule left center right =>
    decide (rule ≤ 65535) && decide (left ≤ 1) && decide (center ≤ 1) && decide (right ≤ 1)
  | .evalIdx rule idx => decide (rule ≤ 65535) && decide (idx ≤ 7)
  | .encode => true

end Sys2Proof
end

