-- ==== Sys2Proof/Decode.lean ====
section
/-! DEFINITION. Decoding a command word (spec/30_encoding.md R60 to R68), total on every 32-bit word and rejecting by name;
then the encoder, the assembler and the disassembler (R69, R72). -/

namespace Sys2Proof

/-- Why a word encodes no command (R66, R67). -/
inductive IllegalWord where
  /-- OP is 0x0 or 0x3 to 0xF (R66). -/
  | opcode
  /-- OP is 0x1 and a bit of [7:4] or [15:11] is set (R67). -/
  | evalReservedBits
  /-- OP is 0x2 and a bit of [31:4] is set (R67). -/
  | encodeReservedBits
deriving DecidableEq, Repr

/-- What a command word decodes to: EVAL, ENCODE or ILLEGAL, and nothing else (R65, R68). -/
inductive Command where
  | instr (i : Instr)
  | illegal (why : IllegalWord)
deriving DecidableEq, Repr

/-- One row of spec/opcode_table.json: a word is of the row when its masked bits are the match. -/
structure OpcodeRow where
  mnemonic : String
  mask : Word
  pattern : Word
deriving DecidableEq, Repr

/-- EVAL's row (R65). -/
def evalRow : OpcodeRow := { mnemonic := "EVAL", mask := 0x0000F8FF, pattern := 0x00000001 }

/-- ENCODE's row (R65). -/
def encodeRow : OpcodeRow := { mnemonic := "ENCODE", mask := 0xFFFFFFFF, pattern := 0x00000002 }

/-- The opcode table, in its order. -/
def opcodeTable : List OpcodeRow := [evalRow, encodeRow]

/-- A word is of a row. -/
def OpcodeRow.covers (r : OpcodeRow) (w : Word) : Bool := (w &&& r.mask) == r.pattern

/-- OP, bits [3:0] (R61). -/
def opField (w : Word) : BitVec 4 := w.extractLsb' 0 4

/-- RULE, bits [31:16] (R61). -/
def ruleField (w : Word) : HalfWord := w.extractLsb' 16 16

/-- NBHD.left, bit 10 (R61). -/
def leftField (w : Word) : Bool := w.getLsbD 10

/-- NBHD.center, bit 9 (R61). -/
def centerField (w : Word) : Bool := w.getLsbD 9

/-- NBHD.right, bit 8 (R61). -/
def rightField (w : Word) : Bool := w.getLsbD 8

/-- The name under which a word that matches no row is rejected (R66, R67). -/
def illegalReason (w : Word) : IllegalWord :=
  if opField w = 1 then .evalReservedBits
  else if opField w = 2 then .encodeReservedBits
  else .opcode

/-- `Decode(w)` of R65. -/
def decode (w : Word) : Command :=
  if evalRow.covers w then .instr (.eval (ruleField w) (leftField w) (centerField w) (rightField w))
  else if encodeRow.covers w then .instr .encode
  else .illegal (illegalReason w)

/-- A single bit as a word, for placing it in a field. -/
def bitWord (b : Bool) : Word := (BitVec.ofBool b).setWidth 32

/-- The command word of a command (R69): `(rule << 16) | (left << 10) | (center << 9) | (right << 8) | 0x1`, or 2. -/
def encode : Instr → Word
  | .eval rule left center right =>
    (rule.setWidth 32 <<< 16) ||| (bitWord left <<< 10) ||| (bitWord center <<< 9) ||| (bitWord right <<< 8) ||| 0x1
  | .encode => 0x00000002

/-- The command an assembler reads from source text, none where R69 rejects the operands. -/
def SourceCommand.instr? (c : SourceCommand) : Option Instr :=
  if c.wellFormed then
    match c with
    | .eval rule left center right =>
      some (.eval (BitVec.ofNat 16 rule) (left.testBit 0) (center.testBit 0) (right.testBit 0))
    | .evalIdx rule idx => some (.eval (BitVec.ofNat 16 rule) (idx.testBit 2) (idx.testBit 1) (idx.testBit 0))
    | .encode => some .encode
  else none

/-- The assembler (R69). -/
def assemble (c : SourceCommand) : Option Word := c.instr?.map encode

/-- One line of disassembly (R72). -/
inductive ListingLine where
  | command (c : SourceCommand)
  | illegal (w : Word)
deriving DecidableEq, Repr

/-- The disassembler (R72): what it lists for a word. -/
def disassemble (w : Word) : ListingLine :=
  match decode w with
  | .instr (.eval rule left center right) =>
    .command (.eval rule.toNat left.toNat center.toNat right.toNat)
  | .instr .encode => .command .encode
  | .illegal _ => .illegal w

/-- The eight upper-case hexadecimal digits of a word, as R72's `%08X` prints them. -/
def hexText (w : Word) : String :=
  String.ofList ((List.range 8).map fun k => ((Nat.digitChar (w.toNat / 16 ^ (7 - k) % 16)).toUpper))

/-- The text of a listing line (R72): decimal operands, or `.illegal 0x%08X`. -/
def ListingLine.text : ListingLine → String
  | .command (.eval rule left center right) =>
    "EVAL " ++ toString rule ++ ", " ++ toString left ++ ", " ++ toString center ++ ", " ++ toString right
  | .command (.evalIdx rule idx) => "EVAL " ++ toString rule ++ ", " ++ toString idx
  | .command .encode => "ENCODE"
  | .illegal w => ".illegal 0x" ++ hexText w

/-- The word that the table's numbering gives: `nbits` bits of `w`, every bit above them 0. -/
def tableWord (nbits w : Nat) : Word := BitVec.ofNat 32 (w % 2 ^ nbits)

/-- What the decoder reads from an instruction of the opcode table whose bits are `w`; none where it is ILLEGAL. -/
def decodeTableWord (nbits w : Nat) : Option Instr :=
  match decode (tableWord nbits w) with
  | .instr i => some i
  | .illegal _ => none

end Sys2Proof
end

