-- ==== Sys2Proof/Machine/State.lean ====
section
/-! DEFINITION. The state of the block and of the host side of its window (spec/10_state.md), the reasons a step can stop,
and the state after reset (spec/70_reset_and_hazards.md R126). -/

namespace Sys2Proof.Machine

/-- The registers the window decodes to (R42). `absent` stands for every offset that reads as 0 and ignores writes: a
reserved offset, a rule slot j >= RMAX, a data word k >= NW (R43). -/
inductive Reg where
  | id
  | param
  | cmd
  | status
  | aLen
  | bLen
  | nRules
  | rounds
  | evalOut
  | errInfo
  | rule (j : Nat)
  | aData (k : Nat)
  | bData (k : Nat)
  | absent
deriving DecidableEq, Repr

/-- STATUS's fields (R18 to R25); bits [7:6] and [31:16] are reserved and read 0. -/
structure Status where
  /-- Bit 0: a command is in progress (R19). -/
  busy : Bool
  /-- Bit 1: the command named by LASTOP has completed (R20). -/
  done : Bool
  /-- Bit 2: it completed with an error (R21). -/
  err : Bool
  /-- Bit 3, sticky: a host write was dropped while BUSY = 1 (R22). -/
  ovr : Bool
  /-- Bits [5:4], the error class (R23). -/
  eclass : BitVec 2
  /-- Bits [11:8], the cause code (R24). -/
  ecause : BitVec 4
  /-- Bits [15:12], bits [3:0] of the last accepted command word (R25). -/
  lastop : BitVec 4
deriving DecidableEq, Repr

/-- The error causes of R104. -/
inductive Cause where
  /-- 1 EMPTY_RULESET (R105). -/
  | emptyRuleset
  /-- 2 NRULES_RANGE (R106). -/
  | nrulesRange
  /-- 3 RULE_RANGE (R107). -/
  | ruleRange
  /-- 4 LEN_MISMATCH (R108). -/
  | lenMismatch
  /-- 5 LEN_RANGE (R109). -/
  | lenRange
  /-- 6 VALUE_RANGE (R110). -/
  | valueRange
  /-- 7 ILLEGAL_COMMAND (R111). -/
  | illegalCommand
deriving DecidableEq, Repr

/-- The command phase (R36). `busy w` is Busy with the accepted command word `w`; the operation is `decode w`. -/
inductive Phase where
  | idle
  | busy (w : Word)
deriving DecidableEq, Repr

/-- The working state ENCODE holds while it runs (R38): the current sequences and the round counter. -/
structure Work where
  curA : BitSeq
  curB : BitSeq
  /-- `rc`, 32 bits: the rounds performed so far. -/
  rc : Word
deriving DecidableEq, Repr

/-- The widths of a host access narrower than a register word (R45). -/
inductive NarrowWidth where
  | byte
  | half
deriving DecidableEq, Repr

/-- What can arrive at the block in one of its cycles (R40, R45, R70, R126): a host access at a byte offset of the window,
the host's WAIT, a reset, or nothing. -/
inductive Input where
  /-- `MemWrite(off, 4, v)` (R46). -/
  | write (off : Offset) (v : Word)
  /-- `MemRead(off, 4)` (R47). -/
  | read (off : Offset)
  /-- A host write of one byte or halfword (R45). -/
  | narrowWrite (off : Offset) (width : NarrowWidth) (v : Word)
  /-- A host read of one byte or halfword (R45). -/
  | narrowRead (off : Offset) (width : NarrowWidth)
  /-- The host polls STATUS until a read returns BUSY = 0 (R70, WAIT). -/
  | wait
  /-- The platform asserts the reset input (R126). -/
  | reset
  /-- Nothing arrives. -/
  | quiet
deriving DecidableEq, Repr

/-- The machine. First stand what is fixed for a block and its platform, then the block's registers, its internal state, and
the model's own fields for what is outside the block: the free values drawn, the accesses still to arrive and the words its
host has read. -/
structure State where
  /-- NW and RMAX, constants of the hardware (R7, R8), from which PARAM reads (R16). -/
  params : Params
  /-- The lanes of the host's bus, constant in a run (R45, R49). -/
  bus : BusLanes
  /-- STATUS (R18). -/
  status : Status
  /-- A_LEN.LEN (R26). -/
  aLen : HalfWord
  /-- B_LEN.LEN (R27). -/
  bLen : HalfWord
  /-- NRULES (R28). -/
  nRules : HalfWord
  /-- ROUNDS (R29). -/
  rounds : Word
  /-- EVAL_OUT.OUT (R30). -/
  evalOut : Bool
  /-- ERRINFO (R31). -/
  errInfo : Word
  /-- RULE[0..RMAX-1] (R32). -/
  ruleSlots : List HalfWord
  /-- A_DATA[0..NW-1] (R33). -/
  aData : List Word
  /-- B_DATA[0..NW-1] (R34). -/
  bData : List Word
  /-- The command phase (R36). -/
  phase : Phase
  /-- ENCODE's working state, held only while an ENCODE runs (R38, R128). -/
  work : Option Work
  /-- What is left of the running command's LATENCY (R10), in cycles. -/
  cyclesLeft : Nat
  /-- How many free values have been drawn (log entries 4, 5). -/
  draws : Nat
  /-- What will arrive at the window, first first (R52); when it is empty nothing arrives. -/
  inputs : List Input
  /-- The words the host's reads returned, last first (R70). -/
  reads : List Word
deriving DecidableEq, Repr

/-- The block never stops with a fault: no access raises an error (R43) and every command completes (R141). So this type
has no constructor, and no outcome of a step is a fault. -/
inductive Fault
deriving DecidableEq, Repr

/-- Why a step has no meaning. -/
inductive Refusal where
  /-- `exec` answers so for a command that has no meaning yet, by its mnemonic. No arm does. Safe. -/
  | notModelled (mnemonic : String)
  /-- A host write narrower than a word arrived: "a model refuses such a write" (R45). Raised by the arrival of an
  `Input.narrowWrite`, by no command. Safe: the model stops where the hardware goes on. -/
  | narrowWrite (off : Offset) (width : NarrowWidth)
deriving DecidableEq, Repr

/-- STATUS after reset: 0x00000000 (R18, R126). -/
def Status.cleared : Status :=
  { busy := false, done := false, err := false, ovr := false, eclass := 0, ecause := 0, lastop := 0 }

/-- The state after reset of a block of the given sizes (R126), nothing arriving and nothing read, on a bus with the lanes
of R49 (log entry 7). -/
def State.resetOf (p : Params) : State :=
  { params := p, bus := .numbered, status := Status.cleared
    aLen := 0, bLen := 0, nRules := 0, rounds := 0, evalOut := false, errInfo := 0
    ruleSlots := List.replicate p.rmax 0
    aData := List.replicate p.nw 0
    bData := List.replicate p.nw 0
    phase := .idle, work := none
    cyclesLeft := 0, draws := 0, inputs := [], reads := [] }

/-- The machine right after reset (R126), for the sizes of the spec's test configuration (log entry 2). -/
def State.reset : State := State.resetOf Config.referenceParams

end Sys2Proof.Machine
end

