-- ==== Sys2Proof/Machine/Flags.lean ====
section
/-! DEFINITION. Every computation of the STATUS fields: the word they read as (R18), what acceptance, success, an error and
a dropped write do to them (R59, R76, R91, R112, R50), and the codes of the causes (R104). -/

namespace Sys2Proof.Machine

/-- STATUS as a host reads it (R18), reserved bits 0. -/
def Status.word (st : Status) : Word :=
  (st.lastop.setWidth 32 <<< 12) ||| (st.ecause.setWidth 32 <<< 8) ||| (st.eclass.setWidth 32 <<< 4) |||
    (bitWord st.ovr <<< 3) ||| (bitWord st.err <<< 2) ||| (bitWord st.done <<< 1) ||| bitWord st.busy

/-- ECAUSE of a cause (R104). -/
def causeCode : Cause → BitVec 4
  | .emptyRuleset => 1
  | .nrulesRange => 2
  | .ruleRange => 3
  | .lenMismatch => 4
  | .lenRange => 5
  | .valueRange => 6
  | .illegalCommand => 7

/-- ECLASS of a cause (R104): 1 InvalidConfiguration, 2 InvalidInput, 3 IllegalCommand (R103). -/
def causeClass : Cause → BitVec 2
  | .emptyRuleset => 1
  | .nrulesRange => 1
  | .ruleRange => 1
  | .lenMismatch => 2
  | .lenRange => 2
  | .valueRange => 2
  | .illegalCommand => 3

/-- STATUS when the command word `w` is accepted (R59). -/
def Status.accepted (w : Word) : Status :=
  { busy := true, done := false, err := false, ovr := false, eclass := 0, ecause := 0, lastop := opField w }

/-- STATUS when a command completes successfully (R76, R91): DONE is set and BUSY cleared. -/
def Status.succeeded (st : Status) : Status := { st with done := true, busy := false }

/-- STATUS when a command completes with an error (R112). -/
def Status.failed (c : Cause) (st : Status) : Status :=
  { st with err := true, eclass := causeClass c, ecause := causeCode c, done := true, busy := false }

/-- STATUS when a host write is dropped (R50). -/
def Status.overrun (st : Status) : Status := { st with ovr := true }

end Sys2Proof.Machine
end

