-- ==== Sys2Proof/Machine/Ops.lean ====
section
/-! DEFINITION. The operations over the register window: what an offset reaches (R41, R42, R45), a register's value and a
store to it (R46, R47), accepting a command (R59), ending one with an error (R112), and the host's accesses. -/

namespace Sys2Proof.Machine

/-- The window offset an address reaches, none outside the window (R41). -/
def windowOffset (p : Platform) (addr : Nat) : Option Offset :=
  if p.base ≤ addr ∧ addr < p.base + 0x4000 then some (BitVec.ofNat 14 (addr - p.base)) else none

/-- The word an offset reaches: `off & 0x3FFC` (R45). -/
def wordOffset (off : Offset) : Nat := (off &&& 0x3FFC).toNat

/-- The control registers by word offset (spec/10_state.md, register summary); every other word below 0x0400 is reserved. -/
def controlReg (w : Nat) : Reg :=
  match w with
  | 0x0000 => .id
  | 0x0004 => .param
  | 0x0008 => .cmd
  | 0x000C => .status
  | 0x0010 => .aLen
  | 0x0014 => .bLen
  | 0x0018 => .nRules
  | 0x001C => .rounds
  | 0x0020 => .evalOut
  | 0x0024 => .errInfo
  | _ => .absent

/-- The register of a file of `count` words that stands at `base`: absent from `count` on (R43). -/
def fileReg (base count : Nat) (reg : Nat → Reg) (w : Nat) : Reg :=
  if (w - base) / 4 < count then reg ((w - base) / 4) else .absent

/-- The register an offset reaches (R42). -/
def regAt (p : Params) (off : Offset) : Reg :=
  if wordOffset off < 0x0400 then controlReg (wordOffset off)
  else if wordOffset off < 0x0800 then fileReg 0x0400 p.rmax .rule (wordOffset off)
  else if wordOffset off < 0x1000 then .absent
  else if wordOffset off < 0x2000 then fileReg 0x1000 p.nw .aData (wordOffset off)
  else if wordOffset off < 0x3000 then fileReg 0x2000 p.nw .bData (wordOffset off)
  else .absent

/-- ID (R15): "R2OA". -/
def idValue : Word := 0x52324F41

/-- PARAM (R16): RMAX in [31:16], NMAX in [15:0]. -/
def paramValue (p : Params) : Word := BitVec.ofNat 16 p.rmax ++ BitVec.ofNat 16 p.nmax

/-- What a register holds, reserved bits 0 (R47); CMD and absent words read 0 (R17, R43). -/
def State.regValue (s : State) : Reg → Word
  | .id => idValue
  | .param => paramValue s.params
  | .cmd => 0
  | .status => s.status.word
  | .aLen => s.aLen.setWidth 32
  | .bLen => s.bLen.setWidth 32
  | .nRules => s.nRules.setWidth 32
  | .rounds => s.rounds
  | .evalOut => (BitVec.ofBool s.evalOut).setWidth 32
  | .errInfo => s.errInfo
  | .rule j => (s.ruleSlots.getD j 0).setWidth 32
  | .aData k => s.aData.getD k 0
  | .bData k => s.bData.getD k 0
  | .absent => 0

/-- What the register at an offset holds. -/
def State.peek (s : State) (off : Offset) : Word := s.regValue (regAt s.params off)

/-- The registers a host write stores into: the list of R46. -/
def Reg.isRW : Reg → Bool
  | .id => false
  | .param => false
  | .cmd => false
  | .status => false
  | .aLen => true
  | .bLen => true
  | .nRules => true
  | .rounds => true
  | .evalOut => false
  | .errInfo => false
  | .rule _ => true
  | .aData _ => true
  | .bData _ => true
  | .absent => false

/-- The data registers, whose reads are unspecified while a command runs (R51). -/
def Reg.isData : Reg → Bool
  | .aData _ => true
  | .bData _ => true
  | _ => false

/-- Storing a word into a register's defined fields (R46): reserved bits are dropped, and a register that is not RW keeps
its value. -/
def writeReg (r : Reg) (v : Word) (s : State) : State :=
  match r with
  | .aLen => { s with aLen := v.setWidth 16 }
  | .bLen => { s with bLen := v.setWidth 16 }
  | .nRules => { s with nRules := v.setWidth 16 }
  | .rounds => { s with rounds := v }
  | .rule j => { s with ruleSlots := s.ruleSlots.set j (v.setWidth 16) }
  | .aData k => { s with aData := s.aData.set k v }
  | .bData k => { s with bData := s.bData.set k v }
  | .id => s
  | .param => s
  | .cmd => s
  | .status => s
  | .evalOut => s
  | .errInfo => s
  | .absent => s

/-- The register effects of accepting the command word `w` (R59). -/
def beginCommand (w : Word) (s : State) : State :=
  { s with status := Status.accepted w, errInfo := 0, phase := .busy w }

/-- Accepting a command (R59): its register effects, and a LATENCY drawn for it (R10). -/
def acceptCommand (w : Word) (s : State) : State :=
  { beginCommand w s with cyclesLeft := Config.latency s.draws, draws := s.draws + 1 }

/-- Error completion (R112), the one operation by which a command that raises cause `c` with info `x` ends. ENCODE's
working state ends with its command (R38). -/
def failCommand (c : Cause) (x : Word) (s : State) : State :=
  { s with status := s.status.failed c, errInfo := x, phase := .idle, work := none }

/-- Successful completion's part that EVAL and ENCODE share (R76, R91). -/
def finishCommand (s : State) : State :=
  { s with status := s.status.succeeded, phase := .idle, work := none }

/-- A host write dropped while BUSY = 1 (R50). -/
def dropWrite (s : State) : State := { s with status := s.status.overrun }

/-- `MemWrite(off, 4, v)` (R46). -/
def hostWrite (off : Offset) (v : Word) (s : State) : State :=
  let r := regAt s.params off
  if r = .cmd then (if s.status.busy then dropWrite s else acceptCommand v s)
  else if r.isRW then (if s.status.busy then dropWrite s else writeReg r v s)
  else s

/-- A read of A_DATA or B_DATA while BUSY = 1 draws an unspecified word (R51). -/
def readsFree (off : Offset) (s : State) : Bool := s.status.busy && (regAt s.params off).isData

/-- The word `MemRead(off, 4)` returns (R47, R51). -/
def readWord (off : Offset) (s : State) : Word :=
  if readsFree off s then Config.busyRead s.draws else s.peek off

/-- Delivering a word to the host, with the free value it may have taken counted. -/
def deliver (off : Offset) (v : Word) (s : State) : State :=
  { s with reads := v :: s.reads, draws := if readsFree off s then s.draws + 1 else s.draws }

/-- `MemRead(off, 4)` (R47): no register changes. -/
def hostRead (off : Offset) (s : State) : State := deliver off (readWord off s) s

/-- The bits a narrower access has. -/
def NarrowWidth.bits : NarrowWidth → Nat
  | .byte => 8
  | .half => 16

/-- The bit of the register word that stands at position `i` of a narrower read (R45): a whole number of R49's byte lanes
from the offset's own, where the bus numbers them and the access is aligned; else the bus's choice. -/
def busBit (bus : BusLanes) (off : Offset) (width : NarrowWidth) (i : Nat) : Nat :=
  if bus = .numbered ∧ off.toNat % (width.bits / 8) = 0 then 8 * (off.toNat % 4) + i
  else (Config.selectedBit off width.bits i).val

/-- The bits of a word that a narrower read receives (R45), zeros above them. -/
def selectLanes (bus : BusLanes) (off : Offset) (width : NarrowWidth) (w : Word) : Word :=
  (BitVec.ofBoolListLE ((List.range width.bits).map fun i => w.getLsbD (busBit bus off width i))).setWidth 32

/-- A host read of one byte or halfword (R45): the register word's selected bits. -/
def hostNarrowRead (off : Offset) (width : NarrowWidth) (s : State) : State :=
  deliver off (selectLanes s.bus off width (readWord off s)) s

/-- Reset (R126, R127): every register and the phase take their reset values and a running command is abandoned. What is
outside the block (the bus, what arrives, what the host has read, the count of free values) stays. -/
def resetBlock (s : State) : State :=
  { State.resetOf s.params with bus := s.bus, draws := s.draws, inputs := s.inputs, reads := s.reads }

end Sys2Proof.Machine
end

