-- ==== Sys2Proof/Machine/Operands.lean ====
section
/-! DEFINITION. A command's operands as they stand in the registers: the integers in the data files (R35), the RuleSet
(R32), and the conversion between an integer and a bit sequence (spec/42_conversion.md R97, R98). -/

namespace Sys2Proof.Machine

/-- The integer a data file holds, word 0 least significant (R35): the sum of `word k * 2^(32 k)`. -/
def wordsToNat : List Word → Nat
  | [] => 0
  | w :: ws => w.toNat + 2 ^ 32 * wordsToNat ws

/-- Bits [32k+31:32k] of an integer (R91). -/
def wordOfNat (v k : Nat) : Word := BitVec.ofNat 32 (v >>> (32 * k))

/-- An integer as the words of a data file (R91). -/
def natToWords (nw v : Nat) : List Word := (List.range nw).map (wordOfNat v)

/-- A_INT (R35). -/
def State.aInt (s : State) : Nat := wordsToNat s.aData

/-- B_INT (R35). -/
def State.bInt (s : State) : Nat := wordsToNat s.bData

/-- RULE[j][15:0] (R32); an absent slot reads 0 (R43). -/
def State.slot (s : State) (j : Nat) : HalfWord := s.ruleSlots.getD j 0

/-- The RuleSet as ENCODE takes it: `RULE[0][7:0], ..., RULE[NRULES-1][7:0]` (R91). -/
def State.ruleSet (s : State) : List RuleId := (List.range s.nRules.toNat).map fun j => (s.slot j).setWidth 8

/-- The first slot below NRULES that holds no legal RuleID (R90), if there is one. -/
def State.firstBadSlot (s : State) : Option Nat :=
  (List.range s.nRules.toNat).find? fun j => decide (255 < (s.slot j).toNat)

/-- `IntToSeq(v, n)` (R97): position 0 holds the most significant of the `n` bits. -/
def intToSeq (v n : Nat) : BitSeq := (List.range n).map fun i => v.testBit (n - 1 - i)

/-- `SeqToInt(s)` (R98): the sum of `s[i] * 2^(n-1-i)`. -/
def seqToInt : BitSeq → Nat
  | [] => 0
  | b :: bs => b.toNat * 2 ^ bs.length + seqToInt bs

end Sys2Proof.Machine
end

