-- ==== Sys2Proof/Machine/RuleEvaluator.lean ====
section
/-! DEFINITION. The Rule Evaluator: the Wolfram-rule lookup and the circular neighbourhood it is fed with
(spec/40_rule_evaluator.md R73 to R75). -/

namespace Sys2Proof.Machine

/-- `idx = left*4 + center*2 + right` (R73). -/
def nbhdIndex (left center right : Bool) : Nat := left.toNat * 4 + center.toNat * 2 + right.toNat

/-- `f(rule, left, center, right)`: bit `idx` of the rule number (R73), an 8-to-1 multiplexer (R74). -/
def evaluateRule (rule : RuleId) (left center right : Bool) : Bool := rule.getLsbD (nbhdIndex left center right)

/-- `s[i]`, for a position of the sequence. -/
def seqAt (s : BitSeq) (i : Nat) : Bool := s.getD i false

/-- `s[(i - 1) mod n]`, the left neighbour of position `i` (R75). -/
def leftOf (s : BitSeq) (i : Nat) : Bool := seqAt s ((i + (s.length - 1)) % s.length)

/-- `s[(i + 1) mod n]`, the right neighbour of position `i` (R75). -/
def rightOf (s : BitSeq) (i : Nat) : Bool := seqAt s ((i + 1) % s.length)

end Sys2Proof.Machine
end

