-- ==== Sys2Proof/Machine/RoundDriver.lean ====
section
/-! DEFINITION. The Round Driver: one round (R80 to R84), the transform (R85), its working state (R38, R87) and the checks
ENCODE makes first (R90). -/

namespace Sys2Proof.Machine

/-- The rule of round `r`: `RS[r mod m]` (R80). -/
def ruleOfRound (rs : List RuleId) (r : Nat) : RuleId := rs.getD (r % rs.length) 0

/-- `Round(s, rule)` (R81): every position is computed from the old sequence (R82). -/
def roundSeq (rule : RuleId) (s : BitSeq) : BitSeq :=
  (List.range s.length).map fun i => evaluateRule rule (leftOf s i) (seqAt s i) (rightOf s i)

/-- One sequence after the first `r` rounds (R85): round `r` runs on the result of the rounds before it (R87). -/
def evolve (rs : List RuleId) : Nat → BitSeq → BitSeq
  | 0, s => s
  | r + 1, s => roundSeq (ruleOfRound rs r) (evolve rs r s)

/-- `Encode(a, b, RS, R)` (R85): both sequences evolve under the same rules (R83), neither reading the other (R84). -/
def encodePair (a b : BitSeq) (rs : List RuleId) (r : Nat) : BitSeq × BitSeq := (evolve rs r a, evolve rs r b)

/-- The working state ENCODE loads from the data files, no round performed (R14, R38). -/
def loadWork (s : State) : Work :=
  { curA := intToSeq s.aInt s.aLen.toNat, curB := intToSeq s.bInt s.aLen.toNat, rc := 0 }

/-- One round of the working state: both sequences under the selected rule, and `rc` advanced by 1 (R14, R38, R83). -/
def advanceWork (rs : List RuleId) (k : Work) : Work :=
  { curA := roundSeq (ruleOfRound rs k.rc.toNat) k.curA
    curB := roundSeq (ruleOfRound rs k.rc.toNat) k.curB
    rc := k.rc + 1 }

/-- `Validate()` (R90): the first check that fails, with its ERRINFO value; none when ENCODE may run. -/
def validate (s : State) : Option (Cause × Word) :=
  if s.nRules = 0 then some (.emptyRuleset, 0)
  else if s.params.rmax < s.nRules.toNat then some (.nrulesRange, s.nRules.setWidth 32)
  else match s.firstBadSlot with
    | some j => some (.ruleRange, BitVec.ofNat 16 j ++ s.slot j)
    | none =>
      if s.aLen ≠ s.bLen then some (.lenMismatch, s.bLen ++ s.aLen)
      else if s.aLen = 0 ∨ s.params.nmax < s.aLen.toNat then some (.lenRange, s.aLen.setWidth 32)
      else if 2 ^ s.aLen.toNat ≤ s.aInt then some (.valueRange, 0)
      else if 2 ^ s.aLen.toNat ≤ s.bInt then some (.valueRange, 1)
      else none

end Sys2Proof.Machine
end

