-- ==== Sys2Proof/Machine/Encode.lean ====
section
/-! DEFINITION. The meaning of ENCODE (spec/41_round_driver.md R91). -/

namespace Sys2Proof.Machine

/-- The pair ENCODE computes from the registers (R91). -/
def encodeResult (s : State) : BitSeq × BitSeq :=
  encodePair (intToSeq s.aInt s.aLen.toNat) (intToSeq s.bInt s.aLen.toNat) s.ruleSet s.rounds.toNat

/-- ENCODE's success (R91): every data word takes its bits of the result. -/
def encodeDone (r : BitSeq × BitSeq) (s : State) : State :=
  { finishCommand s with
    aData := natToWords s.params.nw (seqToInt r.1)
    bData := natToWords s.params.nw (seqToInt r.2) }

/-- ENCODE (R91), performed on an accepted command: the first failing check of R90 ends it, else the transform's results
are written back. -/
def execEncode (s : State) : Host.Outcome State Fault Refusal :=
  match validate s with
  | some (c, x) => .next (failCommand c x s)
  | none => .next (encodeDone (encodeResult s) s)

end Sys2Proof.Machine
end

