-- ==== Sys2Proof/Machine/Eval.lean ====
section
/-! DEFINITION. The meaning of EVAL (spec/40_rule_evaluator.md R76). -/

namespace Sys2Proof.Machine

/-- EVAL's success (R76): EVAL_OUT takes the lookup's bit. -/
def evalDone (out : Bool) (s : State) : State := { finishCommand s with evalOut := out }

/-- EVAL (R76), performed on an accepted command: cause 3 with `(0xFFFF, rule)` when the rule exceeds 255, else the
Rule Evaluator's bit. -/
def execEval (rule : HalfWord) (left center right : Bool) (s : State) : Host.Outcome State Fault Refusal :=
  if 255 < rule.toNat then .next (failCommand .ruleRange (0xFFFF#16 ++ rule) s)
  else .next (evalDone (evaluateRule (rule.setWidth 8) left center right) s)

end Sys2Proof.Machine
end

