-- ==== Sys2Proof/Machine/Dispatch.lean ====
section
/-! DEFINITION. One arm per command: the meaning each runs by when it completes. -/

namespace Sys2Proof.Machine

def exec (i : Instr) (s : State) : Host.Outcome State Fault Refusal :=
  match i with
  | .eval rule left center right => Sys2Proof.Machine.execEval rule left center right s
  | .encode => Sys2Proof.Machine.execEncode s

end Sys2Proof.Machine
end

