-- ==== Sys2Proof/Machine/Illegal.lean ====
section
/-! DEFINITION. The ILLEGAL command (spec/60_exceptions.md R111): what the block does with an accepted word that encodes no
command. It is no row of the opcode table, so no term of `Instr`. -/

namespace Sys2Proof.Machine

/-- ILLEGAL (R111): no check and no computation; cause 7 with the command word as ERRINFO. -/
def execIllegal (w : Word) (s : State) : State := failCommand .illegalCommand w s

end Sys2Proof.Machine
end

