-- ==== Sys2Proof/Machine/Cycle.lean ====
section
/-! DEFINITION. One cycle of the block: a running command's progress and completion (R36, R38, R53, R87, R141), then what
arrives at the window (R46, R47, R52). -/

namespace Sys2Proof.Machine

/-- A running command completes (R53, R76, R91, R112): the word held in the phase is decoded and its command performed. -/
def completeCommand (w : Word) (s : State) : Host.Outcome State Fault Refusal :=
  match decode w with
  | .instr i => exec i s
  | .illegal _ => .next (execIllegal w s)

/-- The working state's progress in a cycle (R38, R87): an ENCODE whose checks pass loads it, then performs one round a
cycle while `rc < ROUNDS`. No other command has working state. One schedule of those R87 allows, log entry 6. -/
def workAfter (w : Word) (s : State) : Option Work :=
  if decode w = .instr .encode ∧ validate s = none then
    match s.work with
    | none => some (loadWork s)
    | some k => some (if k.rc < s.rounds then advanceWork s.ruleSet k else k)
  else s.work

/-- A cycle of a running command that does not complete it. -/
def busyTick (w : Word) (left : Nat) (s : State) : State := { s with work := workAfter w s, cyclesLeft := left }

/-- The host's WAIT (R70): it polls STATUS again while a read returns BUSY = 1. -/
def pollWait (s : State) : State := if s.status.busy then { s with inputs := .wait :: s.inputs } else s

/-- What an arrival does. -/
def performInput (x : Input) (s : State) : Host.Outcome State Fault Refusal :=
  match x with
  | .write off v => .next (hostWrite off v s)
  | .read off => .next (hostRead off s)
  | .narrowWrite off width _ => .refused (.narrowWrite off width)
  | .narrowRead off width => .next (hostNarrowRead off width s)
  | .wait => .next (pollWait s)
  | .reset => .next (resetBlock s)
  | .quiet => .next s

/-- The next arrival, wholly performed before the one behind it (R52); with none to come nothing changes. -/
def arrive (s : State) : Host.Outcome State Fault Refusal :=
  match s.inputs with
  | [] => .next s
  | x :: rest => performInput x { s with inputs := rest }

/-- One cycle: a running command whose LATENCY is over completes, between two host accesses (R53); else it takes one cycle
more and the next arrival is performed. -/
def cycle (s : State) : Host.Outcome State Fault Refusal :=
  match s.phase, s.cyclesLeft with
  | .idle, _ => arrive s
  | .busy w, 0 => completeCommand w s
  | .busy w, left + 1 => arrive (busyTick w left s)

/-- The state in which the command word `w` has been accepted and its LATENCY is over, so that the next cycle completes
it (R59; R10 allows a LATENCY of 0). -/
def placeCommand (w : Word) (s : State) : State := { beginCommand w s with work := none, cyclesLeft := 0 }

end Sys2Proof.Machine
end

