-- ==== Sys2Proof/Machine/Step.lean ====
section
/-! DEFINITION. The step of the machine and the placing of a command for it. -/

namespace Sys2Proof.Machine

/-- One step: one cycle of the block. -/
def step (s : State) : Host.Outcome State Fault Refusal := cycle s

/-- The state whose very next step performs the command word `w`: the word stands in the phase as an accepted command's
does, with no cycle of its LATENCY left (log entry 3). -/
def State.withFetchWord (s : State) (nbits w : Nat) : State := placeCommand (tableWord nbits w) s

end Sys2Proof.Machine
end

