-- ==== Sys2Proof/Machine/HostScript.lean ====
section
/-! DEFINITION. The host code of the spec: host-script statements (R70), pseudo-instructions and their expansions (R71), and
how both, and accesses made at addresses (R41), become arrivals at the window. The block sees only those arrivals. -/

namespace Sys2Proof.Machine

/-- A host-script statement (R70), its offset and value plain numbers. -/
inductive HostStmt where
  /-- `WR off, v`. -/
  | wr (off v : Nat)
  /-- `RD off`. -/
  | rd (off : Nat)
  /-- `WAIT`. -/
  | wait
deriving DecidableEq, Repr

/-- The offset lies in the window (R40) and the value in a word (R45). -/
def HostStmt.wellFormed : HostStmt → Bool
  | .wr off v => decide (off < 0x4000) && decide (v < 2 ^ 32)
  | .rd off => decide (off < 0x4000)
  | .wait => true

/-- What arrives at the window when the host performs a statement. -/
def HostStmt.input : HostStmt → Input
  | .wr off v => .write (BitVec.ofNat 14 off) (BitVec.ofNat 32 v)
  | .rd off => .read (BitVec.ofNat 14 off)
  | .wait => .wait

/-- Offset of CMD (spec/10_state.md, register summary). -/
def offCmd : Nat := 0x0008
/-- Offset of A_LEN. -/
def offALen : Nat := 0x0010
/-- Offset of B_LEN. -/
def offBLen : Nat := 0x0014
/-- Offset of NRULES. -/
def offNRules : Nat := 0x0018
/-- Offset of ROUNDS. -/
def offRounds : Nat := 0x001C
/-- Offset of EVAL_OUT. -/
def offEvalOut : Nat := 0x0020
/-- Offset of RULE[j] (R32). -/
def offRule (j : Nat) : Nat := 0x0400 + 4 * j
/-- Offset of A_DATA[k] (R33). -/
def offAData (k : Nat) : Nat := 0x1000 + 4 * k
/-- Offset of B_DATA[k] (R34). -/
def offBData (k : Nat) : Nat := 0x2000 + 4 * k

/-- The pseudo-instructions (R71). -/
inductive Pseudo where
  /-- `LOADA v, n`. -/
  | loadA (v n : Nat)
  /-- `LOADB v, n`. -/
  | loadB (v n : Nat)
  /-- `SETRULES r0, ..., r(m-1)`. -/
  | setRules (rs : List Nat)
  /-- `SETROUNDS R`; a source-level count may be negative (R103, decision D13). -/
  | setRounds (r : Int)
  /-- `RUN`. -/
  | run
  /-- `EVALW rule, l, c, r`. -/
  | evalW (rule left center right : Nat)
  /-- `READA`. -/
  | readA
  /-- `READB`. -/
  | readB
deriving DecidableEq, Repr

/-- `(v >> 32k) & 0xFFFFFFFF` (R71). -/
def wordBits (v k : Nat) : Nat := (v >>> (32 * k)) % 2 ^ 32

/-- The expansions (R71), for a block of the given sizes. -/
def Pseudo.expand (p : Params) : Pseudo → List HostStmt
  | .loadA v n => .wr offALen n :: (List.range p.nw).map fun k => .wr (offAData k) (wordBits v k)
  | .loadB v n => .wr offBLen n :: (List.range p.nw).map fun k => .wr (offBData k) (wordBits v k)
  | .setRules rs => (rs.mapIdx fun j r => .wr (offRule j) r) ++ [.wr offNRules rs.length]
  | .setRounds r => [.wr offRounds r.toNat]
  | .run => [.wr offCmd (encode .encode).toNat, .wait]
  | .evalW rule left center right =>
    match assemble (.eval rule left center right) with
    | some w => [.wr offCmd w.toNat, .wait, .rd offEvalOut]
    | none => []
  | .readA => (List.range p.nw).map fun k => .rd (offAData k)
  | .readB => (List.range p.nw).map fun k => .rd (offBData k)

/-- What the host code rejects: operands its statements or the assembler cannot hold, and a negative round count, which is
refused at the host boundary (decision D13). -/
def Pseudo.wellFormed (p : Params) (q : Pseudo) : Bool :=
  ((q.expand p).all fun st => st.wellFormed) &&
    match q with
    | .setRounds r => decide (0 ≤ r)
    | .setRules rs => decide (rs.length ≤ 256)
    | .evalW rule left center right => (SourceCommand.eval rule left center right).wellFormed
    | .loadA _ _ => true
    | .loadB _ _ => true
    | .run => true
    | .readA => true
    | .readB => true

/-- The arrivals of a list of host-script statements, in the order the host performs them (R52). -/
def scriptInputs (script : List HostStmt) : List Input := script.map HostStmt.input

/-- A script performed after what is already to arrive. -/
def State.afterScript (s : State) (script : List HostStmt) : State :=
  { s with inputs := s.inputs ++ scriptInputs script }

/-- The value `READA` and `READB` name (R71): the sum of `w_k * 2^(32k)` over the last `nw` words read, `w_0` read first. -/
def readBack (nw : Nat) (reads : List Word) : Nat :=
  ((reads.take nw).reverse.zipIdx.map fun (w, k) => w.toNat * 2 ^ (32 * k)).sum

/-- What a host access at an address becomes at the window: an arrival at its offset, or nothing where the address lies
outside the window and the access reaches something else (R41). -/
def busInputs (p : Platform) (addr : Nat) (access : Offset → Input) : List Input :=
  match windowOffset p addr with
  | some off => [access off]
  | none => []

end Sys2Proof.Machine
end

