-- ==== Sys2Proof/Safety.lean ====
section
/-! DEFINITION. The terms in which claims are stated: the invariant of the block, when ENCODE's checks pass, how a command's
outcome looks, and what a step performs. -/

namespace Sys2Proof.Machine

/-- The register files have the sizes the parameters give (R32, R33, R34), and the sizes are legal (R7, R8). -/
structure State.FilesFit (s : State) : Prop where
  params : s.params.legal = true
  slots : s.ruleSlots.length = s.params.rmax
  aData : s.aData.length = s.params.nw
  bData : s.bData.length = s.params.nw

/-- STATUS and ERRINFO agree (R19 to R24, R31): while busy neither DONE nor ERR is set; without ERR there is no class, no
cause and no info; with ERR the command is done and class and cause are those of one row of R104. -/
structure State.StatusCoherent (s : State) : Prop where
  busy : s.status.busy = true → s.status.done = false ∧ s.status.err = false
  clear : s.status.err = false → s.status.eclass = 0 ∧ s.status.ecause = 0 ∧ s.errInfo = 0
  error : s.status.err = true →
    s.status.done = true ∧ ∃ c, s.status.eclass = causeClass c ∧ s.status.ecause = causeCode c

/-- BUSY = 1 exactly while the phase is Busy (R19, R36), LASTOP is the running word's OP (R25), and no working state is
held between commands (R38). -/
structure State.PhaseCoherent (s : State) : Prop where
  busy : ∀ w, s.phase = .busy w → s.status.busy = true ∧ s.status.lastop = opField w
  idle : s.phase = .idle → s.status.busy = false ∧ s.work = none

/-- The working state is that of a running ENCODE whose checks passed, after `rc` of its rounds (R14, R38, R87). -/
structure State.WorkCoherent (s : State) : Prop where
  running : ∀ k, s.work = some k → (∃ w, s.phase = .busy w ∧ decode w = .instr .encode) ∧ validate s = none
  counter : ∀ k, s.work = some k → k.rc.toNat ≤ s.rounds.toNat
  curA : ∀ k, s.work = some k →
    k.curA = evolve s.ruleSet k.rc.toNat (intToSeq s.aInt s.aLen.toNat)
  curB : ∀ k, s.work = some k →
    k.curB = evolve s.ruleSet k.rc.toNat (intToSeq s.bInt s.aLen.toNat)

/-- The invariant of the block: what rules out states no run from reset reaches. -/
structure State.Inv (s : State) : Prop where
  files : s.FilesFit
  status : s.StatusCoherent
  phase : s.PhaseCoherent
  work : s.WorkCoherent

/-- The operands R133 asks for, which are those that pass every check of R90. -/
structure State.EncodeReady (s : State) : Prop where
  someRule : 1 ≤ s.nRules.toNat
  slotsExist : s.nRules.toNat ≤ s.params.rmax
  rulesLegal : ∀ j, j < s.nRules.toNat → (s.slot j).toNat ≤ 255
  sameLength : s.aLen = s.bLen
  lengthPositive : 1 ≤ s.aLen.toNat
  lengthFits : s.aLen.toNat ≤ s.params.nmax
  aFits : s.aInt < 2 ^ s.aLen.toNat
  bFits : s.bInt < 2 ^ s.aLen.toNat

/-- The state after an error completion with the given class, cause and info (R112), every other field kept but the working
state, which the model holds only while an ENCODE runs (log entry 6). -/
def State.errorOutcome (s : State) (eclass : BitVec 2) (ecause : BitVec 4) (info : Word) : State :=
  { s with
    status := { s.status with err := true, eclass := eclass, ecause := ecause, done := true, busy := false }
    errInfo := info, phase := .idle, work := none }

/-- The command `w` completes in this step. -/
def State.Completing (s : State) (w : Word) : Prop := s.phase = .busy w ∧ s.cyclesLeft = 0

/-- The arrival this step performs: the first one, unless the step completes a command. -/
def State.arriving (s : State) : Option Input :=
  match s.phase, s.cyclesLeft with
  | .idle, _ => s.inputs.head?
  | .busy _, 0 => none
  | .busy _, _ + 1 => s.inputs.head?

/-- This step resets the block. -/
def State.Resetting (s : State) : Prop := s.arriving = some .reset

/-- This step accepts the command word `v` (R59): a write to CMD arrives while BUSY = 0. -/
def State.Accepting (s : State) (v : Word) : Prop :=
  ∃ off, s.arriving = some (.write off v) ∧ regAt s.params off = .cmd ∧ s.status.busy = false

/-- An arrival a running command survives: neither a reset (R127) nor an access the model refuses (R45). -/
def Input.harmless : Input → Bool
  | .write _ _ => true
  | .read _ => true
  | .narrowWrite _ _ _ => false
  | .narrowRead _ _ => true
  | .wait => true
  | .reset => false
  | .quiet => true

/-- `n` steps in a row, stopping where a step stops. -/
def runSteps : Nat → State → Host.Outcome State Fault Refusal
  | 0, s => .next s
  | n + 1, s =>
    match step s with
    | .next t => runSteps n t
    | .fault f => .fault f
    | .refused r => .refused r

/-- The operand registers of a command (R37). -/
def State.operands (s : State) :=
  (s.aLen, s.bLen, s.nRules, s.rounds, s.ruleSlots, s.aData, s.bData)

end Sys2Proof.Machine
end

