-- ==== Sys2Proof/Certificates/Slice0/Obligations.lean ====
section
/-! DEFINITION. The statements for the provers, from the numbered rules of spec/ file by file. Free values (Config.latency,
Config.busyRead) stand in some of them as the opaque constants they are, so each holds for every value of them. -/

open Sys2Proof Sys2Proof.Machine

/-! ## Command encoding (spec/30_encoding.md) -/

/-- R61, R65, R69: the decoder gives back every command from its word, with every operand at every value. -/
def Obligations.DecodeOfEncodeIsTheCommand : Prop :=
  ∀ i : Instr, i.wellFormed = true → decode (encode i) = .instr i

/-- R61, R65, R69: a word that decodes to a command is the only word of that command. -/
def Obligations.EncodeOfDecodeIsTheWord : Prop :=
  ∀ (w : Word) (i : Instr), decode w = .instr i → encode i = w

/-- R65: `Decode(w)` by match and mask, total, and no word matches both rows. -/
def Obligations.DecodeByMatchAndMask : Prop :=
  ∀ w : Word,
    (w &&& 0x0000F8FF = 0x00000001 →
      decode w = .instr (.eval (w.extractLsb' 16 16) (w.getLsbD 10) (w.getLsbD 9) (w.getLsbD 8))) ∧
    (w = 0x00000002 → decode w = .instr .encode) ∧
    (w &&& 0x0000F8FF ≠ 0x00000001 → w ≠ 0x00000002 → ∃ why, decode w = .illegal why) ∧
    ¬ (w &&& 0x0000F8FF = 0x00000001 ∧ w = 0x00000002)

/-- R66, R67: exactly the words with another OP, or with a reserved bit set, are ILLEGAL. The split into three named
reasons is the model's choice, log entry 15: the block shows one cause. -/
def Obligations.IllegalWordsAreTheUnencodedOnes : Prop :=
  ∀ w : Word,
    (decode w = .illegal .opcode ↔ w.extractLsb' 0 4 ≠ 1#4 ∧ w.extractLsb' 0 4 ≠ 2#4) ∧
    (decode w = .illegal .evalReservedBits ↔
      w.extractLsb' 0 4 = 1#4 ∧ (w.extractLsb' 4 4 ≠ 0#4 ∨ w.extractLsb' 11 5 ≠ 0#5)) ∧
    (decode w = .illegal .encodeReservedBits ↔ w.extractLsb' 0 4 = 2#4 ∧ w.extractLsb' 4 28 ≠ 0#28)

/-- Words that spec/95_test_vectors.md writes out in V2.2 and V2.4, and the illegal 0x00000000 of V2.3, decode to what
they stand for; the reasons of the two illegal ones are named as in log entry 15. -/
def Obligations.WrittenOutWordsDecode : Prop :=
  decode 0x002D0501 = .instr (.eval 45 true false true) ∧
  decode 0x006E0301 = .instr (.eval 110 false true true) ∧
  decode 0x001E0401 = .instr (.eval 30 true false false) ∧
  decode 0x01000001 = .instr (.eval 256 false false false) ∧
  decode 0x00000002 = .instr .encode ∧
  decode 0x00010002 = .illegal .encodeReservedBits ∧
  decode 0x00000000 = .illegal .opcode

/-- R72: assembling what the disassembler lists for a word of a command gives back the word. -/
def Obligations.AssembleOfDisassembleIsTheWord : Prop :=
  ∀ (w : Word) (i : Instr), decode w = .instr i →
    ∃ c, disassemble w = .command c ∧ c.wellFormed = true ∧ assemble c = some w

/-! ## A step and the commands -/

/-- R36, R59, R65: when a command's latency is over, the step performs the command the accepted word decodes to, and
nothing else; a word placed for the next step (log entry 3) is performed by it. -/
def Obligations.StepRunsTheDecodedCommand : Prop :=
  (∀ (s : State) (w : Word) (i : Instr), s.Completing w → decode w = .instr i → step s = exec i s) ∧
  (∀ (s : State) (w : Nat) (i : Instr), decodeTableWord 32 w = some i →
    step (s.withFetchWord 32 w) = exec i (s.withFetchWord 32 w))

/-- R111: an accepted word that decodes as ILLEGAL completes with cause 7, class 3, ERRINFO the word, nothing else. -/
def Obligations.IllegalWordCompletesWithCauseSeven : Prop :=
  ∀ (s : State) (w : Word) (why : IllegalWord), s.Completing w → decode w = .illegal why →
    step s = .next (s.errorOutcome 3 7 w)

/-- R125, R129: an idle block at which nothing arrives keeps its whole state, reset state included. -/
def Obligations.IdleBlockKeepsItsState : Prop :=
  (∀ s : State, s.phase = .idle → s.inputs = [] → step s = .next s) ∧
  (∀ p : Params, step (State.resetOf p) = .next (State.resetOf p))

/-! ## EVAL (spec/40_rule_evaluator.md) -/

/-- R73, R76: EVAL of a legal RuleID completes, and EVAL_OUT is the bit of the rule number that the neighbourhood
indexes; DONE is set, BUSY cleared, the phase Idle, every other field kept. -/
def Obligations.EvalWritesTheIndexedBit : Prop :=
  ∀ (s : State) (rule : HalfWord) (left center right : Bool), rule.toNat ≤ 255 →
    exec (.eval rule left center right) s = .next { s with
      evalOut := rule.getLsbD (left.toNat * 4 + center.toNat * 2 + right.toNat)
      status := { s.status with done := true, busy := false }
      phase := .idle
      work := none }

/-- R76, R30, R31: EVAL's frame, by reading every register: only STATUS and EVAL_OUT, and ERRINFO when it fails, read
differently; OVR and LASTOP, what arrives and what was read stay. -/
def Obligations.EvalFrame : Prop :=
  ∀ (s t : State) (rule : HalfWord) (left center right : Bool), exec (.eval rule left center right) s = .next t →
    (∀ off : Offset, wordOffset off ≠ 0x00C → wordOffset off ≠ 0x020 → wordOffset off ≠ 0x024 →
      t.peek off = s.peek off) ∧
    (rule.toNat ≤ 255 → t.errInfo = s.errInfo) ∧
    (255 < rule.toNat → t.evalOut = s.evalOut) ∧
    t.operands = s.operands ∧ t.params = s.params ∧ t.bus = s.bus ∧
    t.status.ovr = s.status.ovr ∧ t.status.lastop = s.status.lastop ∧
    t.inputs = s.inputs ∧ t.reads = s.reads ∧ t.draws = s.draws ∧ t.cyclesLeft = s.cyclesLeft

/-- R79, read as log entry 14 says: two EVALs of one word, accepted in any two states, give the same STATUS, and the
same EVAL_OUT where they succeed (a failing EVAL keeps the EVAL_OUT there was, R76). -/
def Obligations.EvalDependsOnItsWordOnly : Prop :=
  ∀ (s s' t t' : State) (w : Word) (rule : HalfWord) (left center right : Bool),
    decode w = .instr (.eval rule left center right) →
    exec (.eval rule left center right) (acceptCommand w s) = .next t →
    exec (.eval rule left center right) (acceptCommand w s') = .next t' →
    t.status = t'.status ∧ t.errInfo = t'.errInfo ∧ (rule.toNat ≤ 255 → t.evalOut = t'.evalOut)

/-- From R73, the spec's own inferences R77 and R78: the eight outputs of a rule are its bits, so they spell the rule,
and distinct rules differ somewhere; and what the named rules compute. -/
def Obligations.RuleTableIsComplete : Prop :=
  (∀ (rule : RuleId) (idx : Nat), idx < 8 →
    evaluateRule rule (idx.testBit 2) (idx.testBit 1) (idx.testBit 0) = rule.getLsbD idx) ∧
  (∀ rule : RuleId, rule.toNat = ((List.range 8).map fun idx =>
    (evaluateRule rule (idx.testBit 2) (idx.testBit 1) (idx.testBit 0)).toNat * 2 ^ idx).sum) ∧
  (∀ r r' : RuleId, r ≠ r' → ∃ l c x, evaluateRule r l c x ≠ evaluateRule r' l c x) ∧
  (∀ l c r : Bool,
    evaluateRule 204 l c r = c ∧ evaluateRule 51 l c r = !c ∧ evaluateRule 170 l c r = r ∧ evaluateRule 240 l c r = l ∧
    evaluateRule 0 l c r = false ∧ evaluateRule 255 l c r = true ∧ evaluateRule 90 l c r = (l ^^ r) ∧
    evaluateRule 150 l c r = (l ^^ c ^^ r))

/-! ## A round and the transform (spec/41_round_driver.md, spec/42_conversion.md) -/

/-- R75, R81: each position of a round is the lookup on the old sequence's circular neighbourhood. -/
def Obligations.RoundLooksUpEveryNeighbourhood : Prop :=
  ∀ (rule : RuleId) (s : BitSeq), 1 ≤ s.length →
    (roundSeq rule s).length = s.length ∧
    ∀ i (h : i < s.length), ∃ left right,
      s[(i + (s.length - 1)) % s.length]? = some left ∧ s[(i + 1) % s.length]? = some right ∧
      (roundSeq rule s)[i]? =
        some (rule.getLsbD (left.toNat * 4 + (s[i]'h).toNat * 2 + right.toNat))

/-- R83, R85: with no rounds the transform is the identity; else its rounds run in order, round `r` under `RS[r mod
m]` on what the rounds before it gave, the same rule for both sequences. -/
def Obligations.RoundsRunInRoundRobinOrder : Prop :=
  (∀ (a b : BitSeq) (rs : List RuleId), encodePair a b rs 0 = (a, b)) ∧
  (∀ (a b : BitSeq) (rs : List RuleId) (r : Nat) (rule : RuleId), rs[r % rs.length]? = some rule →
    encodePair a b rs (r + 1) =
      (roundSeq rule (encodePair a b rs r).1, roundSeq rule (encodePair a b rs r).2))

/-- From R81 and R85, the spec's own inference R88: the transform keeps the length of both sequences. -/
def Obligations.TransformKeepsLength : Prop :=
  ∀ (a b : BitSeq) (rs : List RuleId) (r : Nat),
    (encodePair a b rs r).1.length = a.length ∧ (encodePair a b rs r).2.length = b.length

/-- R97, and from it the spec's own inference R98: position `i` of the sequence of `v` is bit `n - 1 - i` of `v`; a
sequence's integer is the weighted sum of its bits and lies below 2^n; and the two conversions undo each other. -/
def Obligations.ConversionsUndoEachOther : Prop :=
  (∀ v n : Nat, 1 ≤ n → v < 2 ^ n →
    (intToSeq v n).length = n ∧ (∀ i, i < n → (intToSeq v n)[i]? = some ((v >>> (n - 1 - i)) % 2 == 1)) ∧
    seqToInt (intToSeq v n) = v) ∧
  (∀ s : BitSeq,
    seqToInt s = ((List.range s.length).map fun i => (s.getD i false).toNat * 2 ^ (s.length - 1 - i)).sum ∧
    seqToInt s < 2 ^ s.length ∧ intToSeq (seqToInt s) s.length = s)

/-- From R81 and R97, the spec's own inference R100: a round in integer form, and what rules 170, 240, 204 and 51 do
to the integer. -/
def Obligations.RoundInIntegerForm : Prop :=
  ∀ s : BitSeq, 1 ≤ s.length →
    (∀ (rule : RuleId) (k : Nat), k < s.length →
      (seqToInt (roundSeq rule s)).testBit k =
        evaluateRule rule ((seqToInt s).testBit ((k + 1) % s.length)) ((seqToInt s).testBit k)
          ((seqToInt s).testBit ((k + (s.length - 1)) % s.length))) ∧
    seqToInt (roundSeq 170 s) = ((seqToInt s <<< 1) ||| (seqToInt s >>> (s.length - 1))) % 2 ^ s.length ∧
    seqToInt (roundSeq 240 s) = (seqToInt s >>> 1) ||| ((seqToInt s &&& 1) <<< (s.length - 1)) ∧
    seqToInt (roundSeq 204 s) = seqToInt s ∧
    seqToInt (roundSeq 51 s) = 2 ^ s.length - 1 - seqToInt s

/-- From R35 and R97, the spec's own inference R101: position `i` of a sequence of length `n` is bit `(n-1-i) mod 32`
of word `(n-1-i) div 32`. -/
def Obligations.SequencePositionsLieInTheDataWords : Prop :=
  ∀ (s : State) (n i : Nat), s.FilesFit → n ≤ s.params.nmax → i < n →
    (∃ w, s.aData[(n - 1 - i) / 32]? = some w ∧ (intToSeq s.aInt n)[i]? = some (w.getLsbD ((n - 1 - i) % 32))) ∧
    (∃ w, s.bData[(n - 1 - i) / 32]? = some w ∧ (intToSeq s.bInt n)[i]? = some (w.getLsbD ((n - 1 - i) % 32)))

/-- From R73, R75 and R81, the spec's own inference R93: under RuleID 0 every sequence becomes all zeros in one round;
under RuleID 45 the sequences "00", "01" and "10" all become "11". So the transform is not invertible in general. -/
def Obligations.TransformIsNotInvertible : Prop :=
  (∀ s : BitSeq, roundSeq 0 s = List.replicate s.length false) ∧
  roundSeq 45 [false, false] = [true, true] ∧ roundSeq 45 [false, true] = [true, true] ∧
  roundSeq 45 [true, false] = [true, true]

/-- R14, R38, R87, with the model's schedule of one round a cycle (log entry 6): `r` rounds of the working state
ENCODE holds, from what it loads, give the transform's first `r` rounds with the round counter at `r`; the counter
does not wrap. -/
def Obligations.WorkingStateFollowsTheTransform : Prop :=
  ∀ (s : State) (r : Nat), r ≤ s.rounds.toNat →
    Nat.iterate (advanceWork s.ruleSet) r (loadWork s) =
      { curA := (encodePair (intToSeq s.aInt s.aLen.toNat) (intToSeq s.bInt s.aLen.toNat) s.ruleSet r).1
        curB := (encodePair (intToSeq s.aInt s.aLen.toNat) (intToSeq s.bInt s.aLen.toNat) s.ruleSet r).2
        rc := BitVec.ofNat 32 r } ∧
    (Nat.iterate (advanceWork s.ruleSet) r (loadWork s)).rc.toNat = r

/-! ## ENCODE (spec/41_round_driver.md) -/

/-- R85, R91: ENCODE of operands that pass the checks completes, and every data word of both files takes its 32 bits
of the transform's integer; DONE is set, BUSY cleared, the phase Idle, every other field kept but the working state,
which R38 leaves unspecified between commands and the model drops (log entry 6). The RuleSet it takes is the low 8 bits
of slots 0 to NRULES - 1 in their order (R32, R91). -/
def Obligations.EncodeWritesTheTransform : Prop :=
  (∀ s : State, s.EncodeReady →
    exec .encode s = .next { s with
      aData := (List.range s.params.nw).map fun k => BitVec.ofNat 32
        (seqToInt (encodePair (intToSeq s.aInt s.aLen.toNat) (intToSeq s.bInt s.aLen.toNat) s.ruleSet s.rounds.toNat).1
          / 2 ^ (32 * k))
      bData := (List.range s.params.nw).map fun k => BitVec.ofNat 32
        (seqToInt (encodePair (intToSeq s.aInt s.aLen.toNat) (intToSeq s.bInt s.aLen.toNat) s.ruleSet s.rounds.toNat).2
          / 2 ^ (32 * k))
      status := { s.status with done := true, busy := false }
      phase := .idle
      work := none }) ∧
  (∀ s : State, s.ruleSet.length = s.nRules.toNat ∧
    ∀ j, j < s.nRules.toNat → s.ruleSet[j]? = some ((s.slot j).setWidth 8))

/-- R105, R106: NRULES = 0 ends ENCODE with cause 1, whatever ROUNDS and every other operand hold, and NRULES > RMAX
with cause 2 and the count as ERRINFO. -/
def Obligations.RulesetSizeOutOfRangeFails : Prop :=
  ∀ s : State,
    (s.nRules = 0 → exec .encode s = .next (s.errorOutcome 1 1 0)) ∧
    (s.nRules ≠ 0 → s.params.rmax < s.nRules.toNat →
      exec .encode s = .next (s.errorOutcome 1 2 (s.nRules.setWidth 32)))

/-- R107: the smallest slot below NRULES with a RuleID above 255 ends ENCODE with cause 3, ERRINFO slot and value;
EVAL ends with cause 3 on a RULE field above 255. -/
def Obligations.RuleOutOfRangeFails : Prop :=
  (∀ (s : State) (j : Nat), s.nRules.toNat ≤ s.params.rmax → j < s.nRules.toNat →
    255 < (s.slot j).toNat → (∀ j', j' < j → (s.slot j').toNat ≤ 255) →
    exec .encode s = .next (s.errorOutcome 1 3 (BitVec.ofNat 16 j ++ s.slot j))) ∧
  (∀ (s : State) (rule : HalfWord) (l c r : Bool), 255 < rule.toNat →
    exec (.eval rule l c r) s = .next (s.errorOutcome 1 3 (0xFFFF#16 ++ rule)))

/-- R108, R114: with a legal RuleSet, different lengths end ENCODE with cause 4, ERRINFO `{B_LEN, A_LEN}`. -/
def Obligations.EncodeOfDifferentLengthsFails : Prop :=
  ∀ s : State, 1 ≤ s.nRules.toNat → s.nRules.toNat ≤ s.params.rmax →
    (∀ j, j < s.nRules.toNat → (s.slot j).toNat ≤ 255) → s.aLen ≠ s.bLen →
    exec .encode s = .next (s.errorOutcome 2 4 (s.bLen ++ s.aLen))

/-- R109, R114: with a legal RuleSet and equal lengths, a length of 0 or above NMAX ends ENCODE with cause 5. -/
def Obligations.EncodeOfABadLengthFails : Prop :=
  ∀ s : State, 1 ≤ s.nRules.toNat → s.nRules.toNat ≤ s.params.rmax →
    (∀ j, j < s.nRules.toNat → (s.slot j).toNat ≤ 255) → s.aLen = s.bLen →
    (s.aLen = 0 ∨ s.params.nmax < s.aLen.toNat) →
    exec .encode s = .next (s.errorOutcome 2 5 (s.aLen.setWidth 32))

/-- R99, R110, R114: with a legal RuleSet and legal lengths, A_INT >= 2^n ends ENCODE with cause 6 and ERRINFO 0, and,
A_INT fitting, B_INT >= 2^n with ERRINFO 1. -/
def Obligations.EncodeOfALargeValueFails : Prop :=
  ∀ s : State, 1 ≤ s.nRules.toNat → s.nRules.toNat ≤ s.params.rmax →
    (∀ j, j < s.nRules.toNat → (s.slot j).toNat ≤ 255) → s.aLen = s.bLen →
    1 ≤ s.aLen.toNat → s.aLen.toNat ≤ s.params.nmax →
    (2 ^ s.aLen.toNat ≤ s.aInt → exec .encode s = .next (s.errorOutcome 2 6 0)) ∧
    (s.aInt < 2 ^ s.aLen.toNat → 2 ^ s.aLen.toNat ≤ s.bInt → exec .encode s = .next (s.errorOutcome 2 6 1))

/-- R86: with ROUNDS = 0, ENCODE of operands that pass the checks writes both data files back as they were; the checks
still apply. -/
def Obligations.EncodeOfZeroRoundsIsTheIdentity : Prop :=
  (∀ (a b : BitSeq) (rs : List RuleId), encodePair a b rs 0 = (a, b)) ∧
  (∀ s : State, s.FilesFit → s.EncodeReady → s.rounds = 0 →
    ∃ t, exec .encode s = .next t ∧ t.aData = s.aData ∧ t.bData = s.bData ∧ t.status.err = s.status.err) ∧
  (∀ s : State, ¬ s.EncodeReady → s.rounds = 0 → ∃ t, exec .encode s = .next t ∧ t.status.err = true)

/-- From R91 and R97, the spec's own inference R92: after a successful ENCODE both integers lie below 2^n: every data
bit at integer position `n` or above is 0. -/
def Obligations.EncodeResultFitsItsLength : Prop :=
  ∀ s : State, s.EncodeReady →
    ∃ t, exec .encode s = .next t ∧ t.aInt < 2 ^ s.aLen.toNat ∧ t.bInt < 2 ^ s.aLen.toNat ∧
      (∀ k j, j < 32 → s.aLen.toNat ≤ 32 * k + j →
        (t.aData.getD k 0).getLsbD j = false ∧ (t.bData.getD k 0).getLsbD j = false) ∧
      (∀ k, s.aLen.toNat ≤ 32 * k → t.aData.getD k 0 = 0 ∧ t.bData.getD k 0 = 0)

/-- R84: changing the integer of one sequence, both commands passing the checks, never changes the other's result. -/
def Obligations.SequencesEvolveIndependently : Prop :=
  (∀ (s t t' : State) (b' : List Word), s.EncodeReady → State.EncodeReady { s with bData := b' } →
    exec .encode s = .next t → exec .encode { s with bData := b' } = .next t' → t.aData = t'.aData) ∧
  (∀ (s t t' : State) (a' : List Word), s.EncodeReady → State.EncodeReady { s with aData := a' } →
    exec .encode s = .next t → exec .encode { s with aData := a' } = .next t' → t.bData = t'.bData)

/-- R80, R90: a slot at or above NRULES is neither checked nor used: changing it changes nothing ENCODE does. -/
def Obligations.SlotsBeyondTheRulesetAreNotRead : Prop :=
  ∀ (s : State) (j : Nat) (v : HalfWord), s.nRules.toNat ≤ j →
    ∃ t, exec .encode s = .next t ∧
      exec .encode { s with ruleSlots := s.ruleSlots.set j v } =
        .next { t with ruleSlots := s.ruleSlots.set j v }

/-- R89: two ENCODEs accepted with the same operands in the same size of block give the same A_DATA, B_DATA, STATUS
and ERRINFO, whatever else the two states hold. -/
def Obligations.EncodeDependsOnItsOperandsOnly : Prop :=
  ∀ (s s' : State), s.operands = s'.operands → s.params = s'.params →
    ∃ t t', exec .encode (acceptCommand 2 s) = .next t ∧ exec .encode (acceptCommand 2 s') = .next t' ∧
      t.aData = t'.aData ∧ t.bData = t'.bData ∧ t.status = t'.status ∧ t.errInfo = t'.errInfo

/-- R91: ENCODE's frame, by reading every register: only the data files and STATUS, and ERRINFO when it fails, read
differently; on an error the data files read as before too. -/
def Obligations.EncodeFrame : Prop :=
  ∀ s t : State, exec .encode s = .next t →
    (∀ off : Offset, wordOffset off ≠ 0x00C → wordOffset off ≠ 0x024 →
      ¬ (0x1000 ≤ wordOffset off ∧ wordOffset off < 0x3000) → t.peek off = s.peek off) ∧
    (s.EncodeReady → t.errInfo = s.errInfo ∧ t.status.err = s.status.err ∧ t.status.eclass = s.status.eclass ∧
      t.status.ecause = s.status.ecause) ∧
    (¬ s.EncodeReady → t.aData = s.aData ∧ t.bData = s.bData ∧ t.status.err = true) ∧
    t.params = s.params ∧ t.bus = s.bus ∧ t.status.ovr = s.status.ovr ∧ t.status.lastop = s.status.lastop ∧
    t.inputs = s.inputs ∧ t.reads = s.reads ∧ t.draws = s.draws ∧ t.cyclesLeft = s.cyclesLeft

/-- R112: a command (EVAL, ENCODE or ILLEGAL) that ends with an error sets ERR and DONE, the cause with its class, and
ERRINFO, clears BUSY, leaves the phase Idle, and changes nothing else: every operand, EVAL_OUT and both data files
stay. -/
def Obligations.ErrorsChangeStatusAndInfoOnly : Prop :=
  ∀ (w : Word) (s t : State), s.status.err = false → completeCommand w s = .next t → t.status.err = true →
    ∃ c x, t = s.errorOutcome (causeClass c) (causeCode c) x ∧
      (causeCode c).toNat ≤ 7 ∧ 1 ≤ (causeCode c).toNat ∧
      (causeClass c).toNat = (if (causeCode c).toNat ≤ 3 then 1 else if (causeCode c).toNat ≤ 6 then 2 else 3)

/-! ## The register window (spec/20_memory.md) -/

/-- R59: a CMD write while BUSY = 0 accepts the word: STATUS, ERRINFO and the phase as the rule lists, a LATENCY drawn
(R10, log entry 4), no other register changed. -/
def Obligations.CmdWriteAcceptsTheWord : Prop :=
  ∀ (s : State) (off : Offset) (w : Word), wordOffset off = 0x008 → s.status.busy = false →
    hostWrite off w s = { s with
      status := { busy := true, done := false, err := false, ovr := false, eclass := 0, ecause := 0
                  lastop := w.extractLsb' 0 4 }
      errInfo := 0
      phase := .busy w
      cyclesLeft := Config.latency s.draws
      draws := s.draws + 1 }

/-- R50: while BUSY = 1 a write to CMD or to an RW register changes OVR alone, and any other write changes nothing. -/
def Obligations.BusyWritesAreDropped : Prop :=
  ∀ (s : State) (off : Offset) (v : Word), s.params.legal = true → s.status.busy = true →
    ((wordOffset off = 0x008 ∨ wordOffset off = 0x010 ∨ wordOffset off = 0x014 ∨ wordOffset off = 0x018 ∨
        wordOffset off = 0x01C ∨
        (0x400 ≤ wordOffset off ∧ wordOffset off < 0x400 + 4 * s.params.rmax) ∨
        (0x1000 ≤ wordOffset off ∧ wordOffset off < 0x1000 + 4 * s.params.nw) ∨
        (0x2000 ≤ wordOffset off ∧ wordOffset off < 0x2000 + 4 * s.params.nw)) →
      hostWrite off v s = { s with status := { s.status with ovr := true } }) ∧
    (¬ (wordOffset off = 0x008 ∨ wordOffset off = 0x010 ∨ wordOffset off = 0x014 ∨ wordOffset off = 0x018 ∨
        wordOffset off = 0x01C ∨
        (0x400 ≤ wordOffset off ∧ wordOffset off < 0x400 + 4 * s.params.rmax) ∨
        (0x1000 ≤ wordOffset off ∧ wordOffset off < 0x1000 + 4 * s.params.nw) ∨
        (0x2000 ≤ wordOffset off ∧ wordOffset off < 0x2000 + 4 * s.params.nw)) →
      hostWrite off v s = s)

/-- R26 to R29, R32 to R34, R46, R47: while idle, a write to an RW register stores its defined bits in that register's
field, the one the commands take their operand from, and changes no other field; a read after it gives the value in its
defined bits, and every other register reads as before. -/
def Obligations.IdleWriteIsReadBack : Prop :=
  ∀ (s : State) (off off' : Offset) (v : Word), s.FilesFit → s.status.busy = false →
    (wordOffset off = 0x010 → hostWrite off v s = { s with aLen := v.setWidth 16 }) ∧
    (wordOffset off = 0x014 → hostWrite off v s = { s with bLen := v.setWidth 16 }) ∧
    (wordOffset off = 0x018 → hostWrite off v s = { s with nRules := v.setWidth 16 }) ∧
    (wordOffset off = 0x01C → hostWrite off v s = { s with rounds := v }) ∧
    (∀ j, j < s.params.rmax → wordOffset off = 0x400 + 4 * j →
      hostWrite off v s = { s with ruleSlots := s.ruleSlots.set j (v.setWidth 16) } ∧
      (hostWrite off v s).slot j = v.setWidth 16 ∧ ∀ j', j' ≠ j → (hostWrite off v s).slot j' = s.slot j') ∧
    (∀ k, k < s.params.nw → wordOffset off = 0x1000 + 4 * k →
      hostWrite off v s = { s with aData := s.aData.set k v } ∧ (hostWrite off v s).aData[k]? = some v) ∧
    (∀ k, k < s.params.nw → wordOffset off = 0x2000 + 4 * k →
      hostWrite off v s = { s with bData := s.bData.set k v } ∧ (hostWrite off v s).bData[k]? = some v) ∧
    ((wordOffset off = 0x010 ∨ wordOffset off = 0x014 ∨ wordOffset off = 0x018 ∨
        (0x400 ≤ wordOffset off ∧ wordOffset off < 0x400 + 4 * s.params.rmax)) →
      readWord off (hostWrite off v s) = v &&& 0x0000FFFF) ∧
    ((wordOffset off = 0x01C ∨
        (0x1000 ≤ wordOffset off ∧ wordOffset off < 0x1000 + 4 * s.params.nw) ∨
        (0x2000 ≤ wordOffset off ∧ wordOffset off < 0x2000 + 4 * s.params.nw)) →
      readWord off (hostWrite off v s) = v) ∧
    (wordOffset off ≠ 0x008 → wordOffset off' ≠ wordOffset off →
      readWord off' (hostWrite off v s) = readWord off' s)

/-- R43: reserved offsets, absent rule slots and absent data words read 0 and ignore writes, OVR included, busy or
idle; and no word access to the window stops the machine. -/
def Obligations.AbsentWordsReadZeroAndIgnoreWrites : Prop :=
  ∀ (s : State) (off : Offset) (v : Word), s.params.legal = true →
    (((0x028 ≤ wordOffset off ∧ wordOffset off < 0x400) ∨
      (0x400 + 4 * s.params.rmax ≤ wordOffset off ∧ wordOffset off < 0x1000) ∨
      (0x1000 + 4 * s.params.nw ≤ wordOffset off ∧ wordOffset off < 0x2000) ∨
      (0x2000 + 4 * s.params.nw ≤ wordOffset off)) →
    readWord off s = 0 ∧ hostWrite off v s = s) ∧
    (∃ t, performInput (.write off v) s = .next t) ∧ (∃ t, performInput (.read off) s = .next t)

/-- R15, R16: ID and PARAM read as constants, busy or idle, and writes to them change nothing. -/
def Obligations.IdentificationRegistersAreConstant : Prop :=
  ∀ (s : State) (off : Offset) (v : Word), s.params.legal = true →
    (wordOffset off = 0x000 → readWord off s = 0x52324F41 ∧ hostWrite off v s = s) ∧
    (wordOffset off = 0x004 →
      (readWord off s).toNat % 2 ^ 16 = 32 * s.params.nw ∧ (readWord off s).toNat / 2 ^ 16 = s.params.rmax ∧
      hostWrite off v s = s)

/-- R18: the STATUS word's layout, its reserved bits 0; neither a write nor a read changes it; it is 0 after reset. -/
def Obligations.StatusReadsAsItsFields : Prop :=
  (∀ (s : State) (off : Offset) (v : Word), wordOffset off = 0x00C →
    (readWord off s).getLsbD 0 = s.status.busy ∧ (readWord off s).getLsbD 1 = s.status.done ∧
    (readWord off s).getLsbD 2 = s.status.err ∧ (readWord off s).getLsbD 3 = s.status.ovr ∧
    (readWord off s).extractLsb' 4 2 = s.status.eclass ∧ (readWord off s).extractLsb' 6 2 = 0#2 ∧
    (readWord off s).extractLsb' 8 4 = s.status.ecause ∧ (readWord off s).extractLsb' 12 4 = s.status.lastop ∧
    (readWord off s).extractLsb' 16 16 = 0#16 ∧ hostWrite off v s = s ∧ (hostRead off s).status = s.status) ∧
  (∀ (p : Params) (off : Offset), wordOffset off = 0x00C → readWord off (State.resetOf p) = 0)

/-- R17, R30, R31: in every state CMD reads 0, EVAL_OUT reads OUT in bit 0 and 0 above it, and ERRINFO reads its value;
writes to the two read-only ones change nothing, busy or idle. -/
def Obligations.ReadOnlyResultsReadAsTheirFields : Prop :=
  ∀ (s : State) (off : Offset) (v : Word),
    (wordOffset off = 0x008 → readWord off s = 0) ∧
    (wordOffset off = 0x020 →
      (readWord off s).getLsbD 0 = s.evalOut ∧ (readWord off s).extractLsb' 1 31 = 0#31 ∧ hostWrite off v s = s) ∧
    (wordOffset off = 0x024 → readWord off s = s.errInfo ∧ hostWrite off v s = s)

/-- R45, R49: address bits [1:0] are ignored by reads and writes; a narrower write, whenever it arrives, is refused. A
narrower read, busy or idle, delivers bits of the word a word read would deliver, each selected by the bus for the offset
and the width alone, and zeros above them; it changes nothing else and counts the free values a word read would. On a
bus that numbers its lanes a byte read, and a halfword read at an even offset, delivers the byte lane or lane pair of its
offset, lane 0 the least significant. The forms of the selection are the model's choice, log entry 7. -/
def Obligations.AccessWidthsAndLowAddressBits : Prop :=
  (∀ (s : State) (off off' : Offset) (v : Word), off.toNat / 4 = off'.toNat / 4 →
    hostWrite off v s = hostWrite off' v s ∧ readWord off s = readWord off' s) ∧
  (∀ (s : State) (off : Offset) (width : NarrowWidth) (v : Word),
    s.arriving = some (.narrowWrite off width v) → step s = .refused (.narrowWrite off width)) ∧
  (∀ (bus : BusLanes) (off : Offset) (width : NarrowWidth), ∃ sel : Nat → Nat,
    (∀ i, i < width.bits → sel i < 32) ∧
    ∀ s : State, s.bus = bus → ∃ v, (hostNarrowRead off width s).reads = v :: s.reads ∧
      ∀ i, v.getLsbD i = (decide (i < width.bits) && (readWord off s).getLsbD (sel i))) ∧
  (NarrowWidth.byte.bits = 8 ∧ NarrowWidth.half.bits = 16) ∧
  (∀ (s : State) (off : Offset) (width : NarrowWidth),
    { hostNarrowRead off width s with reads := s.reads, draws := s.draws } = s ∧
    (hostNarrowRead off width s).draws = (hostRead off s).draws) ∧
  (∀ (s : State) (off : Offset), s.bus = .numbered →
    (hostNarrowRead off .byte s).reads =
      BitVec.ofNat 32 ((readWord off s).toNat / 2 ^ (8 * (off.toNat % 4)) % 2 ^ 8) :: s.reads ∧
    (off.toNat % 2 = 0 → (hostNarrowRead off .half s).reads =
      BitVec.ofNat 32 ((readWord off s).toNat / 2 ^ (8 * (off.toNat % 4)) % 2 ^ 16) :: s.reads))

/-- R47: a host read changes no register and no block state; it only delivers its word, and two reads of one register
with nothing between them deliver the same word, unless they are R51's. -/
def Obligations.ReadsHaveNoSideEffect : Prop :=
  ∀ (s : State) (off : Offset),
    (∀ off', (hostRead off s).peek off' = s.peek off') ∧
    { hostRead off s with reads := s.reads, draws := s.draws } = s ∧
    (hostRead off s).reads = readWord off s :: s.reads ∧
    (readsFree off s = false → readWord off (hostRead off s) = readWord off s)

/-- R51: while BUSY = 1 a read of an A_DATA or B_DATA word the block has delivers an unspecified word, a free value (log
entry 5), and every other register reads its defined value. -/
def Obligations.BusyDataReadsAreUnspecified : Prop :=
  ∀ (s : State) (off : Offset), s.params.legal = true → s.status.busy = true →
    (((0x1000 ≤ wordOffset off ∧ wordOffset off < 0x1000 + 4 * s.params.nw) ∨
        (0x2000 ≤ wordOffset off ∧ wordOffset off < 0x2000 + 4 * s.params.nw)) →
      readWord off s = Config.busyRead s.draws ∧ (hostRead off s).draws = s.draws + 1) ∧
    (¬ ((0x1000 ≤ wordOffset off ∧ wordOffset off < 0x1000 + 4 * s.params.nw) ∨
        (0x2000 ≤ wordOffset off ∧ wordOffset off < 0x2000 + 4 * s.params.nw)) →
      readWord off s = s.peek off ∧ (hostRead off s).draws = s.draws)

/-- R41: the window reaches its offsets from the addresses `BASE + off`, and from no other address. -/
def Obligations.WindowReachesItsOffsets : Prop :=
  ∀ (p : Platform) (addr : Nat) (off : Offset),
    windowOffset p addr = some off ↔ addr = p.base + off.toNat

/-! ## Reset (spec/70_reset_and_hazards.md) -/

/-- From R126 and R127: a reset that arrives, command running or not, leaves every register at its reset value and the phase
Idle; ID and PARAM keep their constants. That no working state is held is log entry 16. -/
def Obligations.ResetClearsEveryRegister : Prop :=
  ∀ s : State, s.Resetting →
    ∃ t, step s = .next t ∧ t.phase = .idle ∧ t.work = none ∧ t.params = s.params ∧
      (∀ off : Offset, t.peek off =
        if wordOffset off = 0x000 then 0x52324F41 else if wordOffset off = 0x004 then paramValue s.params else 0) ∧
      t.ruleSlots = List.replicate s.params.rmax 0 ∧ t.aData = List.replicate s.params.nw 0 ∧
      t.bData = List.replicate s.params.nw 0

/-- From R76, R90 and R126, the spec's own inference R130: straight after reset an ENCODE ends with cause 1 and a
legal EVAL works, in a block of any size. Their CMD write is taken as accepted with LATENCY 0, log entry 3. -/
def Obligations.CommandsAfterReset : Prop :=
  ∀ p : Params,
    (∃ t, step ((State.resetOf p).withFetchWord 32 2) = .next t ∧ t.status.word = 0x00002116 ∧ t.errInfo = 0) ∧
    (∀ (w : Nat) (rule : HalfWord) (l c r : Bool),
      decodeTableWord 32 w = some (.eval rule l c r) → rule.toNat ≤ 255 →
      ∃ t, step ((State.resetOf p).withFetchWord 32 w) = .next t ∧ t.status.word = 0x00001002 ∧
        t.evalOut = evaluateRule (rule.setWidth 8) l c r)

/-! ## The whole machine -/

/-- R126: the invariant holds after reset, in a block of any legal size (State.reset's sizes are log entry 2). -/
def Obligations.ResetMeetsTheInvariant : Prop :=
  State.reset.Inv ∧ ∀ p : Params, p.legal = true → (State.resetOf p).Inv

/-- R14, R19, R20, R21, R23, R24, R25, R36, R38, R104: every step keeps the invariant: the register files keep their
sizes, BUSY is 1 exactly while a command runs, class, cause, ERR, DONE and ERRINFO agree, and the working state is the
running ENCODE's after `rc` rounds and absent between commands (log entry 6). -/
def Obligations.StepKeepsTheInvariant : Prop :=
  ∀ s t : State, s.Inv → step s = .next t → t.Inv

/-- R37, R50, R56: while a command runs, no step that is neither a reset nor a completing ENCODE's changes an operand
register. R37 exempts the data files; that they too stay until the completion is the model's choice, log entry 13. -/
def Obligations.OperandsStayWhileBusy : Prop :=
  ∀ s t : State, s.Inv → s.status.busy = true → ¬ s.Resetting → step s = .next t →
    t.operands ≠ s.operands →
    ∃ w, s.Completing w ∧ decode w = .instr .encode ∧
      t.operands = (s.aLen, s.bLen, s.nRules, s.rounds, s.ruleSlots, t.aData, t.bData)

/-- R30: EVAL_OUT changes only when an EVAL of a legal RuleID completes, to that EVAL's bit, or by reset. -/
def Obligations.EvalOutChangesOnlyByEval : Prop :=
  ∀ s t : State, step s = .next t → t.evalOut ≠ s.evalOut →
    s.Resetting ∨
    ∃ w rule l c r, s.Completing w ∧ decode w = .instr (.eval rule l c r) ∧ rule.toNat ≤ 255 ∧
      t.evalOut = evaluateRule (rule.setWidth 8) l c r

/-- R22: a step that accepts a command or resets leaves OVR 0; any other keeps a 1; a 0 becomes 1 exactly when a write
to CMD or to an RW register arrives while BUSY = 1; OVR never affects what a command computes; it is 0 after reset. -/
def Obligations.OverrunIsSticky : Prop :=
  (∀ s t : State, step s = .next t →
    (s.Resetting ∨ (∃ v, s.Accepting v) → t.status.ovr = false) ∧
    (¬ s.Resetting → (∀ v, ¬ s.Accepting v) → s.status.ovr = true → t.status.ovr = true) ∧
    (s.status.ovr = false →
      (t.status.ovr = true ↔ s.status.busy = true ∧ ∃ off v, s.arriving = some (.write off v) ∧
        (regAt s.params off = .cmd ∨ (regAt s.params off).isRW = true)))) ∧
  (∀ (w : Word) (s t : State) (o : Bool), completeCommand w s = .next t →
    completeCommand w { s with status := { s.status with ovr := o } } =
      .next { t with status := { t.status with ovr := o } }) ∧
  (∀ p : Params, (State.resetOf p).status.ovr = false)

/-- R25: accepting a command, legal or not, writes bits [3:0] of its word into LASTOP; a reset clears it; no other
step changes it. -/
def Obligations.LastopNamesTheAcceptedWord : Prop :=
  ∀ s t : State, step s = .next t →
    (∀ v, s.Accepting v → t.status.lastop = v.extractLsb' 0 4) ∧
    (s.Resetting → t.status.lastop = 0) ∧
    (¬ s.Resetting → (∀ v, ¬ s.Accepting v) → t.status.lastop = s.status.lastop)

/-- R115: what an error left in STATUS and ERRINFO stays until the next command is accepted or reset. -/
def Obligations.ErrorStatusStaysUntilTheNextCommand : Prop :=
  ∀ s t : State, s.Inv → s.status.err = true → step s = .next t → ¬ s.Resetting → (∀ v, ¬ s.Accepting v) →
    t.status.err = true ∧ t.status.eclass = s.status.eclass ∧ t.status.ecause = s.status.ecause ∧
      t.status.done = true ∧ t.errInfo = s.errInfo

/-- R46, R47, R52: a step that does not complete a command performs the next arrival, wholly and nothing else, on the
state the arrival is taken from, which in a cycle of a running command is that of `busyTick` (one arrival a cycle is log
entry 1, the cycle's progress log entries 4 and 6); with nothing to arrive there is that progress only. And R43, R45, R102: a step
stops in one case only, a narrower write arriving, and then by that refusal. -/
def Obligations.OnlyNarrowWritesStopAStep : Prop :=
  (∀ (s u : State) (x : Input) (rest : List Input), s.inputs = x :: rest →
    ((s.phase = .idle ∧ u = { s with inputs := rest }) ∨
      ∃ w left, s.phase = .busy w ∧ s.cyclesLeft = left + 1 ∧
        u = { s with inputs := rest, work := workAfter w s, cyclesLeft := left }) →
    (∀ off v, x = .write off v → step s = .next (hostWrite off v u)) ∧
    (∀ off, x = .read off → step s = .next (hostRead off u)) ∧
    (∀ off width, x = .narrowRead off width → step s = .next (hostNarrowRead off width u)) ∧
    (∀ off width v, x = .narrowWrite off width v → step s = .refused (.narrowWrite off width)) ∧
    (x = .reset → step s = .next (resetBlock u)) ∧
    (x = .wait → step s = .next (if u.status.busy then { u with inputs := .wait :: u.inputs } else u)) ∧
    (x = .quiet → step s = .next u)) ∧
  (∀ (s : State) (w : Word) (left : Nat), s.phase = .busy w → s.cyclesLeft = left + 1 → s.inputs = [] →
    step s = .next { s with work := workAfter w s, cyclesLeft := left }) ∧
  ∀ s : State,
    (∃ off width v, s.arriving = some (.narrowWrite off width v) ∧ step s = .refused (.narrowWrite off width)) ∨
    ((∀ off width v, s.arriving ≠ some (.narrowWrite off width v)) ∧ ∃ t, step s = .next t)

/-- R38, R87: the working state never reaches the host: two states that differ in it alone step to states that differ
in it alone, or are refused alike. -/
def Obligations.WorkingStateIsUnobservable : Prop :=
  ∀ (s : State) (k : Option Work),
    match step s, step { s with work := k } with
    | .next t, .next t' => { t with work := none } = { t' with work := none }
    | .refused r, .refused r' => r = r'
    | _, _ => False

/-- R10, R141, with the model's count of cycles (log entry 4): a running command completes after its LATENCY, whatever
harmless accesses arrive meanwhile: after `cyclesLeft + 1` steps the block is Idle with BUSY = 0 and DONE = 1. -/
def Obligations.EveryCommandCompletes : Prop :=
  ∀ (s : State) (w : Word), s.phase = .busy w → s.status.busy = true →
    (∀ x ∈ s.inputs.take s.cyclesLeft, x.harmless = true) →
    ∃ t, runSteps (s.cyclesLeft + 1) s = .next t ∧
      t.phase = .idle ∧ t.status.busy = false ∧ t.status.done = true

/-- R3, R37, R53, R113: what a command, legal or ILLEGAL, leaves does not depend on its LATENCY or on what arrives while
it runs: after its completing step the operand and data registers, EVAL_OUT, ERRINFO and STATUS but for OVR are those the
command's effect gives from the state in which it was running. The count of cycles is the model's, log entry 4, and so is
taking the effect on a state in mid-run, where the data files still are what they were at acceptance, log entry 13. -/
def Obligations.ResultsDoNotDependOnTiming : Prop :=
  ∀ (s u : State) (w : Word), s.phase = .busy w → s.status.busy = true →
    (∀ x ∈ s.inputs.take s.cyclesLeft, x.harmless = true) →
    (∀ i, decode w = .instr i → exec i s = .next u) →
    (∀ why, decode w = .illegal why → u = s.errorOutcome 3 7 w) →
    ∃ t, runSteps (s.cyclesLeft + 1) s = .next t ∧
      t.operands = u.operands ∧ t.evalOut = u.evalOut ∧ t.errInfo = u.errInfo ∧ t.phase = u.phase ∧
      { t.status with ovr := false } = { u.status with ovr := false }

/-- R70, with the model's form of WAIT (log entry 9): WAIT polls again while BUSY = 1 and lets the host's next access
arrive once BUSY = 0; it changes nothing else. -/
def Obligations.WaitPollsUntilIdle : Prop :=
  ∀ (s : State) (rest : List Input), s.inputs = .wait :: rest →
    (s.phase = .idle → s.status.busy = false → step s = .next { s with inputs := rest }) ∧
    (∀ w left, s.phase = .busy w → s.cyclesLeft = left + 1 → s.status.busy = true →
      ∃ k, step s = .next { s with work := k, cyclesLeft := left })

/-- R71: LOADA leaves `v` in A_INT and `n` in A_LEN of an idle block, and changes no other register. -/
def Obligations.LoadASetsTheInteger : Prop :=
  ∀ (s : State) (v n : Nat), s.FilesFit → s.phase = .idle → s.status.busy = false → s.inputs = [] →
    v < 2 ^ s.params.nmax → n < 2 ^ 16 →
    ∃ t, runSteps (s.params.nw + 1)
        (s.afterScript ((Pseudo.loadA v n).expand s.params)) = .next t ∧
      t.aInt = v ∧ t.aLen.toNat = n ∧
      t = { s with aData := t.aData, aLen := t.aLen }
end

