-- ==== Sys2Proof/Laws/Decode.lean ====
section
/-! SUPPORT. The opcode table's rows as conditions on a word's bits: what a row covers, and that no word is of two rows. -/

namespace Sys2Proof

theorem OpcodeRow.covers_iff (r : OpcodeRow) (w : Word) : r.covers w = true ↔ w &&& r.mask = r.pattern := by
  simp [OpcodeRow.covers]

theorem evalRow_covers_iff (w : Word) : evalRow.covers w = true ↔ w &&& 0x0000F8FF = 0x00000001 :=
  evalRow.covers_iff w

/-- ENCODE's mask is all ones: its row covers one word (R65). -/
theorem encodeRow_covers_iff (w : Word) : encodeRow.covers w = true ↔ w = 0x00000002 := by
  rw [OpcodeRow.covers_iff]
  have : w &&& encodeRow.mask = w := BitVec.and_allOnes
  rw [this]
  rfl

/-- A masked word equals a pattern exactly when it does at every bit. -/
theorem and_eq_iff_bits (w m x : Word) : w &&& m = x ↔ ∀ i, i < 32 → (w.getLsbD i && m.getLsbD i) = x.getLsbD i := by
  constructor
  · intro h i _
    rw [← h, BitVec.getLsbD_and]
  · intro h
    apply BitVec.eq_of_getLsbD_eq
    intro i hi
    rw [BitVec.getLsbD_and, h i hi]

/-- No word matches two rows of the table (R65). -/
theorem opcodeTable_disjoint (w : Word) : ¬ (evalRow.covers w = true ∧ encodeRow.covers w = true) := by
  rintro ⟨h1, h2⟩
  rw [encodeRow_covers_iff] at h2
  subst h2
  revert h1
  decide

/-- What decoding can answer, said once (R65). -/
theorem decode_cases (w : Word) :
    (w &&& 0x0000F8FF = 0x00000001 ∧
      decode w = .instr (.eval (ruleField w) (leftField w) (centerField w) (rightField w))) ∨
    (w = 0x00000002 ∧ decode w = .instr .encode) ∨
    (w &&& 0x0000F8FF ≠ 0x00000001 ∧ w ≠ 0x00000002 ∧ decode w = .illegal (illegalReason w)) := by
  by_cases h1 : evalRow.covers w = true
  · exact .inl ⟨(evalRow_covers_iff w).mp h1, by rw [decode, if_pos h1]⟩
  · by_cases h2 : encodeRow.covers w = true
    · exact .inr (.inl ⟨(encodeRow_covers_iff w).mp h2, by rw [decode, if_neg h1, if_pos h2]⟩)
    · exact .inr (.inr ⟨fun h => h1 ((evalRow_covers_iff w).mpr h), fun h => h2 ((encodeRow_covers_iff w).mpr h),
        by rw [decode, if_neg h1, if_neg h2]⟩)

end Sys2Proof
end

