-- ==== Sys2Proof/Laws/Operands.lean ====
section
/-! SUPPORT. The conversions between words, integers and bit sequences, and the evolution of a sequence: one lemma per
property, which proofs cite instead of unfolding the definitions. -/

namespace Sys2Proof.Machine

@[simp] theorem intToSeq_length (v n : Nat) : (intToSeq v n).length = n := by simp [intToSeq]

@[simp] theorem natToWords_length (nw v : Nat) : (natToWords nw v).length = nw := by simp [natToWords]

@[simp] theorem roundSeq_length (rule : RuleId) (s : BitSeq) : (roundSeq rule s).length = s.length := by
  simp [roundSeq]

theorem evolve_length (rs : List RuleId) (r : Nat) (s : BitSeq) : (evolve rs r s).length = s.length := by
  induction r with
  | zero => rfl
  | succ r ih => simp [evolve, ih]

theorem intToSeq_getElem? (v n i : Nat) (h : i < n) : (intToSeq v n)[i]? = some (v.testBit (n - 1 - i)) := by
  simp [intToSeq, h]

theorem seqToInt_lt (s : BitSeq) : seqToInt s < 2 ^ s.length := by
  induction s with
  | nil => simp [seqToInt]
  | cons b bs ih =>
    have hb : b.toNat ≤ 1 := by cases b <;> simp
    have := Nat.mul_le_mul_right (2 ^ bs.length) hb
    simp only [seqToInt, List.length_cons, Nat.pow_succ]
    omega

/-- Bit `k` of a sequence's integer is position `n - 1 - k` (R98). -/
theorem seqToInt_testBit (s : BitSeq) (k : Nat) (h : k < s.length) :
    (seqToInt s).testBit k = seqAt s (s.length - 1 - k) := by
  induction s with
  | nil => simp at h
  | cons b bs ih =>
    have hlt := seqToInt_lt bs
    have hmul : seqToInt (b :: bs) = 2 ^ bs.length * b.toNat + seqToInt bs := by simp [seqToInt, Nat.mul_comm]
    rw [hmul, Nat.testBit_two_pow_mul_add _ hlt]
    by_cases hk : k < bs.length
    · have hi : (b :: bs).length - 1 - k = (bs.length - 1 - k) + 1 := by simp; omega
      rw [if_pos hk, ih hk, hi]
      simp [seqAt]
    · have hk' : k = bs.length := by simp at h; omega
      subst hk'
      cases b <;> simp [seqAt]

theorem seqToInt_intToSeq (v n : Nat) (h : v < 2 ^ n) : seqToInt (intToSeq v n) = v := by
  apply Nat.eq_of_testBit_eq
  intro k
  by_cases hk : k < n
  · rw [seqToInt_testBit _ _ (by simpa using hk)]
    have : n - 1 - (n - 1 - k) = k := by omega
    simp [seqAt, intToSeq, show n - 1 - k < n by omega, this]
  · have hp : 2 ^ n ≤ 2 ^ k := Nat.pow_le_pow_right (by omega) (by omega)
    have h1 := seqToInt_lt (intToSeq v n)
    rw [intToSeq_length] at h1
    rw [Nat.testBit_lt_two_pow (by omega), Nat.testBit_lt_two_pow (by omega)]

theorem intToSeq_seqToInt (s : BitSeq) : intToSeq (seqToInt s) s.length = s := by
  apply List.ext_getElem?
  intro i
  by_cases hi : i < s.length
  · rw [intToSeq_getElem? _ _ _ hi, seqToInt_testBit _ _ (by omega)]
    have : s.length - 1 - (s.length - 1 - i) = i := by omega
    simp [this, seqAt, hi]
  · simp [intToSeq, hi]

/-- Bit `32 k + j` of the integer of a data file is bit `j` of word `k` (R35). -/
theorem wordsToNat_testBit (ws : List Word) (p : Nat) :
    (wordsToNat ws).testBit p = (ws.getD (p / 32) 0).getLsbD (p % 32) := by
  induction ws generalizing p with
  | nil => simp [wordsToNat]
  | cons w ws ih =>
    have hw : w.toNat < 2 ^ 32 := w.isLt
    have he : wordsToNat (w :: ws) = 2 ^ 32 * wordsToNat ws + w.toNat := by simp [wordsToNat]; omega
    rw [he, Nat.testBit_two_pow_mul_add _ hw]
    by_cases hp : p < 32
    · have h0 : p / 32 = 0 := by omega
      have h1 : p % 32 = p := by omega
      simp [hp, h0, h1, BitVec.getLsbD]
    · have h0 : p / 32 = (p - 32) / 32 + 1 := by omega
      have h1 : p % 32 = (p - 32) % 32 := by omega
      simp [hp, ih, h0, h1]

theorem wordsToNat_lt (ws : List Word) : wordsToNat ws < 2 ^ (32 * ws.length) := by
  induction ws with
  | nil => simp [wordsToNat]
  | cons w ws ih =>
    have hw : w.toNat < 2 ^ 32 := w.isLt
    have hp : (2 : Nat) ^ (32 * (w :: ws).length) = 2 ^ 32 * 2 ^ (32 * ws.length) := by
      rw [← Nat.pow_add]; congr 1; simp; omega
    simp only [wordsToNat, hp]
    omega

theorem wordOfNat_getLsbD (v k j : Nat) (h : j < 32) : (wordOfNat v k).getLsbD j = v.testBit (32 * k + j) := by
  rw [wordOfNat, BitVec.getLsbD_ofNat]
  simp [h]

@[simp] theorem natToWords_getD (nw v k : Nat) (h : k < nw) : (natToWords nw v).getD k 0 = wordOfNat v k := by
  simp [natToWords, h]

/-- A written-back integer is read modulo the file's size (R91, R35). -/
theorem wordsToNat_natToWords (nw v : Nat) : wordsToNat (natToWords nw v) = v % 2 ^ (32 * nw) := by
  apply Nat.eq_of_testBit_eq
  intro p
  rw [wordsToNat_testBit, Nat.testBit_mod_two_pow]
  by_cases hp : p / 32 < nw
  · have h1 : p < 32 * nw := by omega
    have h2 : p % 32 < 32 := Nat.mod_lt _ (by omega)
    rw [natToWords_getD _ _ _ hp, wordOfNat_getLsbD _ _ _ h2, Nat.div_add_mod]
    simp [h1]
  · have h1 : ¬ p < 32 * nw := by omega
    simp [natToWords, hp, h1]

/-- Writing back an unchanged integer leaves every word as it was. -/
theorem natToWords_wordsToNat (ws : List Word) : natToWords ws.length (wordsToNat ws) = ws := by
  apply List.ext_getElem (by simp)
  intro k h1 h2
  apply BitVec.eq_of_getLsbD_eq
  intro j hj
  have h3 : (32 * k + j) / 32 = k := by omega
  have h4 : (32 * k + j) % 32 = j := by omega
  have h5 : (natToWords ws.length (wordsToNat ws))[k] = wordOfNat (wordsToNat ws) k := by simp [natToWords]
  rw [h5, wordOfNat_getLsbD _ _ _ hj, wordsToNat_testBit, h3, h4]
  simp [h2]

end Sys2Proof.Machine
end

