-- ==== Sys2Proof/Laws/State.lean ====
section
/-! SUPPORT. One lemma per field and per update of State: what each shared operation leaves in each field. -/

namespace Sys2Proof.Machine

@[simp] theorem acceptCommand_params (w : Word) (s : State) : (acceptCommand w s).params = s.params := rfl
@[simp] theorem acceptCommand_bus (w : Word) (s : State) : (acceptCommand w s).bus = s.bus := rfl
@[simp] theorem acceptCommand_status (w : Word) (s : State) : (acceptCommand w s).status = Status.accepted w := rfl
@[simp] theorem acceptCommand_aLen (w : Word) (s : State) : (acceptCommand w s).aLen = s.aLen := rfl
@[simp] theorem acceptCommand_bLen (w : Word) (s : State) : (acceptCommand w s).bLen = s.bLen := rfl
@[simp] theorem acceptCommand_nRules (w : Word) (s : State) : (acceptCommand w s).nRules = s.nRules := rfl
@[simp] theorem acceptCommand_rounds (w : Word) (s : State) : (acceptCommand w s).rounds = s.rounds := rfl
@[simp] theorem acceptCommand_evalOut (w : Word) (s : State) : (acceptCommand w s).evalOut = s.evalOut := rfl
@[simp] theorem acceptCommand_errInfo (w : Word) (s : State) : (acceptCommand w s).errInfo = 0 := rfl
@[simp] theorem acceptCommand_ruleSlots (w : Word) (s : State) : (acceptCommand w s).ruleSlots = s.ruleSlots := rfl
@[simp] theorem acceptCommand_aData (w : Word) (s : State) : (acceptCommand w s).aData = s.aData := rfl
@[simp] theorem acceptCommand_bData (w : Word) (s : State) : (acceptCommand w s).bData = s.bData := rfl
@[simp] theorem acceptCommand_phase (w : Word) (s : State) : (acceptCommand w s).phase = .busy w := rfl
@[simp] theorem acceptCommand_work (w : Word) (s : State) : (acceptCommand w s).work = s.work := rfl
@[simp] theorem acceptCommand_cyclesLeft (w : Word) (s : State) : (acceptCommand w s).cyclesLeft = Config.latency s.draws := rfl
@[simp] theorem acceptCommand_draws (w : Word) (s : State) : (acceptCommand w s).draws = s.draws + 1 := rfl
@[simp] theorem acceptCommand_inputs (w : Word) (s : State) : (acceptCommand w s).inputs = s.inputs := rfl
@[simp] theorem acceptCommand_reads (w : Word) (s : State) : (acceptCommand w s).reads = s.reads := rfl

@[simp] theorem failCommand_params (c : Cause) (x : Word) (s : State) : (failCommand c x s).params = s.params := rfl
@[simp] theorem failCommand_bus (c : Cause) (x : Word) (s : State) : (failCommand c x s).bus = s.bus := rfl
@[simp] theorem failCommand_status (c : Cause) (x : Word) (s : State) : (failCommand c x s).status = s.status.failed c := rfl
@[simp] theorem failCommand_aLen (c : Cause) (x : Word) (s : State) : (failCommand c x s).aLen = s.aLen := rfl
@[simp] theorem failCommand_bLen (c : Cause) (x : Word) (s : State) : (failCommand c x s).bLen = s.bLen := rfl
@[simp] theorem failCommand_nRules (c : Cause) (x : Word) (s : State) : (failCommand c x s).nRules = s.nRules := rfl
@[simp] theorem failCommand_rounds (c : Cause) (x : Word) (s : State) : (failCommand c x s).rounds = s.rounds := rfl
@[simp] theorem failCommand_evalOut (c : Cause) (x : Word) (s : State) : (failCommand c x s).evalOut = s.evalOut := rfl
@[simp] theorem failCommand_errInfo (c : Cause) (x : Word) (s : State) : (failCommand c x s).errInfo = x := rfl
@[simp] theorem failCommand_ruleSlots (c : Cause) (x : Word) (s : State) : (failCommand c x s).ruleSlots = s.ruleSlots := rfl
@[simp] theorem failCommand_aData (c : Cause) (x : Word) (s : State) : (failCommand c x s).aData = s.aData := rfl
@[simp] theorem failCommand_bData (c : Cause) (x : Word) (s : State) : (failCommand c x s).bData = s.bData := rfl
@[simp] theorem failCommand_phase (c : Cause) (x : Word) (s : State) : (failCommand c x s).phase = .idle := rfl
@[simp] theorem failCommand_work (c : Cause) (x : Word) (s : State) : (failCommand c x s).work = none := rfl
@[simp] theorem failCommand_cyclesLeft (c : Cause) (x : Word) (s : State) : (failCommand c x s).cyclesLeft = s.cyclesLeft := rfl
@[simp] theorem failCommand_draws (c : Cause) (x : Word) (s : State) : (failCommand c x s).draws = s.draws := rfl
@[simp] theorem failCommand_inputs (c : Cause) (x : Word) (s : State) : (failCommand c x s).inputs = s.inputs := rfl
@[simp] theorem failCommand_reads (c : Cause) (x : Word) (s : State) : (failCommand c x s).reads = s.reads := rfl

@[simp] theorem finishCommand_params (s : State) : (finishCommand s).params = s.params := rfl
@[simp] theorem finishCommand_bus (s : State) : (finishCommand s).bus = s.bus := rfl
@[simp] theorem finishCommand_status (s : State) : (finishCommand s).status = s.status.succeeded := rfl
@[simp] theorem finishCommand_aLen (s : State) : (finishCommand s).aLen = s.aLen := rfl
@[simp] theorem finishCommand_bLen (s : State) : (finishCommand s).bLen = s.bLen := rfl
@[simp] theorem finishCommand_nRules (s : State) : (finishCommand s).nRules = s.nRules := rfl
@[simp] theorem finishCommand_rounds (s : State) : (finishCommand s).rounds = s.rounds := rfl
@[simp] theorem finishCommand_evalOut (s : State) : (finishCommand s).evalOut = s.evalOut := rfl
@[simp] theorem finishCommand_errInfo (s : State) : (finishCommand s).errInfo = s.errInfo := rfl
@[simp] theorem finishCommand_ruleSlots (s : State) : (finishCommand s).ruleSlots = s.ruleSlots := rfl
@[simp] theorem finishCommand_aData (s : State) : (finishCommand s).aData = s.aData := rfl
@[simp] theorem finishCommand_bData (s : State) : (finishCommand s).bData = s.bData := rfl
@[simp] theorem finishCommand_phase (s : State) : (finishCommand s).phase = .idle := rfl
@[simp] theorem finishCommand_work (s : State) : (finishCommand s).work = none := rfl
@[simp] theorem finishCommand_cyclesLeft (s : State) : (finishCommand s).cyclesLeft = s.cyclesLeft := rfl
@[simp] theorem finishCommand_draws (s : State) : (finishCommand s).draws = s.draws := rfl
@[simp] theorem finishCommand_inputs (s : State) : (finishCommand s).inputs = s.inputs := rfl
@[simp] theorem finishCommand_reads (s : State) : (finishCommand s).reads = s.reads := rfl

@[simp] theorem evalDone_params (out : Bool) (s : State) : (evalDone out s).params = s.params := rfl
@[simp] theorem evalDone_bus (out : Bool) (s : State) : (evalDone out s).bus = s.bus := rfl
@[simp] theorem evalDone_status (out : Bool) (s : State) : (evalDone out s).status = s.status.succeeded := rfl
@[simp] theorem evalDone_aLen (out : Bool) (s : State) : (evalDone out s).aLen = s.aLen := rfl
@[simp] theorem evalDone_bLen (out : Bool) (s : State) : (evalDone out s).bLen = s.bLen := rfl
@[simp] theorem evalDone_nRules (out : Bool) (s : State) : (evalDone out s).nRules = s.nRules := rfl
@[simp] theorem evalDone_rounds (out : Bool) (s : State) : (evalDone out s).rounds = s.rounds := rfl
@[simp] theorem evalDone_evalOut (out : Bool) (s : State) : (evalDone out s).evalOut = out := rfl
@[simp] theorem evalDone_errInfo (out : Bool) (s : State) : (evalDone out s).errInfo = s.errInfo := rfl
@[simp] theorem evalDone_ruleSlots (out : Bool) (s : State) : (evalDone out s).ruleSlots = s.ruleSlots := rfl
@[simp] theorem evalDone_aData (out : Bool) (s : State) : (evalDone out s).aData = s.aData := rfl
@[simp] theorem evalDone_bData (out : Bool) (s : State) : (evalDone out s).bData = s.bData := rfl
@[simp] theorem evalDone_phase (out : Bool) (s : State) : (evalDone out s).phase = .idle := rfl
@[simp] theorem evalDone_work (out : Bool) (s : State) : (evalDone out s).work = none := rfl
@[simp] theorem evalDone_cyclesLeft (out : Bool) (s : State) : (evalDone out s).cyclesLeft = s.cyclesLeft := rfl
@[simp] theorem evalDone_draws (out : Bool) (s : State) : (evalDone out s).draws = s.draws := rfl
@[simp] theorem evalDone_inputs (out : Bool) (s : State) : (evalDone out s).inputs = s.inputs := rfl
@[simp] theorem evalDone_reads (out : Bool) (s : State) : (evalDone out s).reads = s.reads := rfl

@[simp] theorem encodeDone_params (r : BitSeq × BitSeq) (s : State) : (encodeDone r s).params = s.params := rfl
@[simp] theorem encodeDone_bus (r : BitSeq × BitSeq) (s : State) : (encodeDone r s).bus = s.bus := rfl
@[simp] theorem encodeDone_status (r : BitSeq × BitSeq) (s : State) : (encodeDone r s).status = s.status.succeeded := rfl
@[simp] theorem encodeDone_aLen (r : BitSeq × BitSeq) (s : State) : (encodeDone r s).aLen = s.aLen := rfl
@[simp] theorem encodeDone_bLen (r : BitSeq × BitSeq) (s : State) : (encodeDone r s).bLen = s.bLen := rfl
@[simp] theorem encodeDone_nRules (r : BitSeq × BitSeq) (s : State) : (encodeDone r s).nRules = s.nRules := rfl
@[simp] theorem encodeDone_rounds (r : BitSeq × BitSeq) (s : State) : (encodeDone r s).rounds = s.rounds := rfl
@[simp] theorem encodeDone_evalOut (r : BitSeq × BitSeq) (s : State) : (encodeDone r s).evalOut = s.evalOut := rfl
@[simp] theorem encodeDone_errInfo (r : BitSeq × BitSeq) (s : State) : (encodeDone r s).errInfo = s.errInfo := rfl
@[simp] theorem encodeDone_ruleSlots (r : BitSeq × BitSeq) (s : State) : (encodeDone r s).ruleSlots = s.ruleSlots := rfl
@[simp] theorem encodeDone_aData (r : BitSeq × BitSeq) (s : State) : (encodeDone r s).aData = natToWords s.params.nw (seqToInt r.1) := rfl
@[simp] theorem encodeDone_bData (r : BitSeq × BitSeq) (s : State) : (encodeDone r s).bData = natToWords s.params.nw (seqToInt r.2) := rfl
@[simp] theorem encodeDone_phase (r : BitSeq × BitSeq) (s : State) : (encodeDone r s).phase = .idle := rfl
@[simp] theorem encodeDone_work (r : BitSeq × BitSeq) (s : State) : (encodeDone r s).work = none := rfl
@[simp] theorem encodeDone_cyclesLeft (r : BitSeq × BitSeq) (s : State) : (encodeDone r s).cyclesLeft = s.cyclesLeft := rfl
@[simp] theorem encodeDone_draws (r : BitSeq × BitSeq) (s : State) : (encodeDone r s).draws = s.draws := rfl
@[simp] theorem encodeDone_inputs (r : BitSeq × BitSeq) (s : State) : (encodeDone r s).inputs = s.inputs := rfl
@[simp] theorem encodeDone_reads (r : BitSeq × BitSeq) (s : State) : (encodeDone r s).reads = s.reads := rfl

@[simp] theorem dropWrite_params (s : State) : (dropWrite s).params = s.params := rfl
@[simp] theorem dropWrite_bus (s : State) : (dropWrite s).bus = s.bus := rfl
@[simp] theorem dropWrite_status (s : State) : (dropWrite s).status = s.status.overrun := rfl
@[simp] theorem dropWrite_aLen (s : State) : (dropWrite s).aLen = s.aLen := rfl
@[simp] theorem dropWrite_bLen (s : State) : (dropWrite s).bLen = s.bLen := rfl
@[simp] theorem dropWrite_nRules (s : State) : (dropWrite s).nRules = s.nRules := rfl
@[simp] theorem dropWrite_rounds (s : State) : (dropWrite s).rounds = s.rounds := rfl
@[simp] theorem dropWrite_evalOut (s : State) : (dropWrite s).evalOut = s.evalOut := rfl
@[simp] theorem dropWrite_errInfo (s : State) : (dropWrite s).errInfo = s.errInfo := rfl
@[simp] theorem dropWrite_ruleSlots (s : State) : (dropWrite s).ruleSlots = s.ruleSlots := rfl
@[simp] theorem dropWrite_aData (s : State) : (dropWrite s).aData = s.aData := rfl
@[simp] theorem dropWrite_bData (s : State) : (dropWrite s).bData = s.bData := rfl
@[simp] theorem dropWrite_phase (s : State) : (dropWrite s).phase = s.phase := rfl
@[simp] theorem dropWrite_work (s : State) : (dropWrite s).work = s.work := rfl
@[simp] theorem dropWrite_cyclesLeft (s : State) : (dropWrite s).cyclesLeft = s.cyclesLeft := rfl
@[simp] theorem dropWrite_draws (s : State) : (dropWrite s).draws = s.draws := rfl
@[simp] theorem dropWrite_inputs (s : State) : (dropWrite s).inputs = s.inputs := rfl
@[simp] theorem dropWrite_reads (s : State) : (dropWrite s).reads = s.reads := rfl

@[simp] theorem deliver_params (off : Offset) (v : Word) (s : State) : (deliver off v s).params = s.params := rfl
@[simp] theorem deliver_bus (off : Offset) (v : Word) (s : State) : (deliver off v s).bus = s.bus := rfl
@[simp] theorem deliver_status (off : Offset) (v : Word) (s : State) : (deliver off v s).status = s.status := rfl
@[simp] theorem deliver_aLen (off : Offset) (v : Word) (s : State) : (deliver off v s).aLen = s.aLen := rfl
@[simp] theorem deliver_bLen (off : Offset) (v : Word) (s : State) : (deliver off v s).bLen = s.bLen := rfl
@[simp] theorem deliver_nRules (off : Offset) (v : Word) (s : State) : (deliver off v s).nRules = s.nRules := rfl
@[simp] theorem deliver_rounds (off : Offset) (v : Word) (s : State) : (deliver off v s).rounds = s.rounds := rfl
@[simp] theorem deliver_evalOut (off : Offset) (v : Word) (s : State) : (deliver off v s).evalOut = s.evalOut := rfl
@[simp] theorem deliver_errInfo (off : Offset) (v : Word) (s : State) : (deliver off v s).errInfo = s.errInfo := rfl
@[simp] theorem deliver_ruleSlots (off : Offset) (v : Word) (s : State) : (deliver off v s).ruleSlots = s.ruleSlots := rfl
@[simp] theorem deliver_aData (off : Offset) (v : Word) (s : State) : (deliver off v s).aData = s.aData := rfl
@[simp] theorem deliver_bData (off : Offset) (v : Word) (s : State) : (deliver off v s).bData = s.bData := rfl
@[simp] theorem deliver_phase (off : Offset) (v : Word) (s : State) : (deliver off v s).phase = s.phase := rfl
@[simp] theorem deliver_work (off : Offset) (v : Word) (s : State) : (deliver off v s).work = s.work := rfl
@[simp] theorem deliver_cyclesLeft (off : Offset) (v : Word) (s : State) : (deliver off v s).cyclesLeft = s.cyclesLeft := rfl
@[simp] theorem deliver_draws (off : Offset) (v : Word) (s : State) : (deliver off v s).draws = if readsFree off s then s.draws + 1 else s.draws := rfl
@[simp] theorem deliver_inputs (off : Offset) (v : Word) (s : State) : (deliver off v s).inputs = s.inputs := rfl
@[simp] theorem deliver_reads (off : Offset) (v : Word) (s : State) : (deliver off v s).reads = v :: s.reads := rfl

@[simp] theorem resetBlock_params (s : State) : (resetBlock s).params = s.params := rfl
@[simp] theorem resetBlock_bus (s : State) : (resetBlock s).bus = s.bus := rfl
@[simp] theorem resetBlock_status (s : State) : (resetBlock s).status = Status.cleared := rfl
@[simp] theorem resetBlock_aLen (s : State) : (resetBlock s).aLen = 0 := rfl
@[simp] theorem resetBlock_bLen (s : State) : (resetBlock s).bLen = 0 := rfl
@[simp] theorem resetBlock_nRules (s : State) : (resetBlock s).nRules = 0 := rfl
@[simp] theorem resetBlock_rounds (s : State) : (resetBlock s).rounds = 0 := rfl
@[simp] theorem resetBlock_evalOut (s : State) : (resetBlock s).evalOut = false := rfl
@[simp] theorem resetBlock_errInfo (s : State) : (resetBlock s).errInfo = 0 := rfl
@[simp] theorem resetBlock_ruleSlots (s : State) : (resetBlock s).ruleSlots = List.replicate s.params.rmax 0 := rfl
@[simp] theorem resetBlock_aData (s : State) : (resetBlock s).aData = List.replicate s.params.nw 0 := rfl
@[simp] theorem resetBlock_bData (s : State) : (resetBlock s).bData = List.replicate s.params.nw 0 := rfl
@[simp] theorem resetBlock_phase (s : State) : (resetBlock s).phase = .idle := rfl
@[simp] theorem resetBlock_work (s : State) : (resetBlock s).work = none := rfl
@[simp] theorem resetBlock_cyclesLeft (s : State) : (resetBlock s).cyclesLeft = 0 := rfl
@[simp] theorem resetBlock_draws (s : State) : (resetBlock s).draws = s.draws := rfl
@[simp] theorem resetBlock_inputs (s : State) : (resetBlock s).inputs = s.inputs := rfl
@[simp] theorem resetBlock_reads (s : State) : (resetBlock s).reads = s.reads := rfl

@[simp] theorem busyTick_params (w : Word) (left : Nat) (s : State) : (busyTick w left s).params = s.params := rfl
@[simp] theorem busyTick_bus (w : Word) (left : Nat) (s : State) : (busyTick w left s).bus = s.bus := rfl
@[simp] theorem busyTick_status (w : Word) (left : Nat) (s : State) : (busyTick w left s).status = s.status := rfl
@[simp] theorem busyTick_aLen (w : Word) (left : Nat) (s : State) : (busyTick w left s).aLen = s.aLen := rfl
@[simp] theorem busyTick_bLen (w : Word) (left : Nat) (s : State) : (busyTick w left s).bLen = s.bLen := rfl
@[simp] theorem busyTick_nRules (w : Word) (left : Nat) (s : State) : (busyTick w left s).nRules = s.nRules := rfl
@[simp] theorem busyTick_rounds (w : Word) (left : Nat) (s : State) : (busyTick w left s).rounds = s.rounds := rfl
@[simp] theorem busyTick_evalOut (w : Word) (left : Nat) (s : State) : (busyTick w left s).evalOut = s.evalOut := rfl
@[simp] theorem busyTick_errInfo (w : Word) (left : Nat) (s : State) : (busyTick w left s).errInfo = s.errInfo := rfl
@[simp] theorem busyTick_ruleSlots (w : Word) (left : Nat) (s : State) : (busyTick w left s).ruleSlots = s.ruleSlots := rfl
@[simp] theorem busyTick_aData (w : Word) (left : Nat) (s : State) : (busyTick w left s).aData = s.aData := rfl
@[simp] theorem busyTick_bData (w : Word) (left : Nat) (s : State) : (busyTick w left s).bData = s.bData := rfl
@[simp] theorem busyTick_phase (w : Word) (left : Nat) (s : State) : (busyTick w left s).phase = s.phase := rfl
@[simp] theorem busyTick_work (w : Word) (left : Nat) (s : State) : (busyTick w left s).work = workAfter w s := rfl
@[simp] theorem busyTick_cyclesLeft (w : Word) (left : Nat) (s : State) : (busyTick w left s).cyclesLeft = left := rfl
@[simp] theorem busyTick_draws (w : Word) (left : Nat) (s : State) : (busyTick w left s).draws = s.draws := rfl
@[simp] theorem busyTick_inputs (w : Word) (left : Nat) (s : State) : (busyTick w left s).inputs = s.inputs := rfl
@[simp] theorem busyTick_reads (w : Word) (left : Nat) (s : State) : (busyTick w left s).reads = s.reads := rfl

@[simp] theorem status_succeeded_busy (st : Status) : (st.succeeded).busy = false := rfl
@[simp] theorem status_succeeded_done (st : Status) : (st.succeeded).done = true := rfl
@[simp] theorem status_succeeded_err (st : Status) : (st.succeeded).err = st.err := rfl
@[simp] theorem status_succeeded_ovr (st : Status) : (st.succeeded).ovr = st.ovr := rfl
@[simp] theorem status_succeeded_eclass (st : Status) : (st.succeeded).eclass = st.eclass := rfl
@[simp] theorem status_succeeded_ecause (st : Status) : (st.succeeded).ecause = st.ecause := rfl
@[simp] theorem status_succeeded_lastop (st : Status) : (st.succeeded).lastop = st.lastop := rfl

@[simp] theorem status_failed_busy (c : Cause) (st : Status) : (st.failed c).busy = false := rfl
@[simp] theorem status_failed_done (c : Cause) (st : Status) : (st.failed c).done = true := rfl
@[simp] theorem status_failed_err (c : Cause) (st : Status) : (st.failed c).err = true := rfl
@[simp] theorem status_failed_ovr (c : Cause) (st : Status) : (st.failed c).ovr = st.ovr := rfl
@[simp] theorem status_failed_eclass (c : Cause) (st : Status) : (st.failed c).eclass = causeClass c := rfl
@[simp] theorem status_failed_ecause (c : Cause) (st : Status) : (st.failed c).ecause = causeCode c := rfl
@[simp] theorem status_failed_lastop (c : Cause) (st : Status) : (st.failed c).lastop = st.lastop := rfl

@[simp] theorem status_overrun_busy (st : Status) : (st.overrun).busy = st.busy := rfl
@[simp] theorem status_overrun_done (st : Status) : (st.overrun).done = st.done := rfl
@[simp] theorem status_overrun_err (st : Status) : (st.overrun).err = st.err := rfl
@[simp] theorem status_overrun_ovr (st : Status) : (st.overrun).ovr = true := rfl
@[simp] theorem status_overrun_eclass (st : Status) : (st.overrun).eclass = st.eclass := rfl
@[simp] theorem status_overrun_ecause (st : Status) : (st.overrun).ecause = st.ecause := rfl
@[simp] theorem status_overrun_lastop (st : Status) : (st.overrun).lastop = st.lastop := rfl

@[simp] theorem status_accepted_busy (w : Word) : (Status.accepted w).busy = true := rfl
@[simp] theorem status_accepted_done (w : Word) : (Status.accepted w).done = false := rfl
@[simp] theorem status_accepted_err (w : Word) : (Status.accepted w).err = false := rfl
@[simp] theorem status_accepted_ovr (w : Word) : (Status.accepted w).ovr = false := rfl
@[simp] theorem status_accepted_eclass (w : Word) : (Status.accepted w).eclass = 0 := rfl
@[simp] theorem status_accepted_ecause (w : Word) : (Status.accepted w).ecause = 0 := rfl
@[simp] theorem status_accepted_lastop (w : Word) : (Status.accepted w).lastop = opField w := rfl

end Sys2Proof.Machine
end

