-- ==== Sys2Proof/Laws/Ops.lean ====
section
/-! SUPPORT. What each shared operation can do, said once: the window's decoding, host writes and reads, the checks of
ENCODE, a command's outcome and a step; and that every operation keeps the register files' sizes. -/

namespace Sys2Proof.Machine

/-! ## The window -/

theorem wordOffset_eq (off : Offset) : wordOffset off = off.toNat / 4 * 4 := by
  have h : off &&& (0x3FFC : Offset) = (off >>> 2) <<< 2 := by
    apply BitVec.eq_of_getLsbD_eq
    intro i hi
    have : i = 0 ∨ i = 1 ∨ i = 2 ∨ i = 3 ∨ i = 4 ∨ i = 5 ∨ i = 6 ∨ i = 7 ∨ i = 8 ∨ i = 9 ∨ i = 10 ∨ i = 11 ∨ i = 12 ∨ i = 13 := by
      omega
    rcases this with h | h | h | h | h | h | h | h | h | h | h | h | h | h <;> subst h <;> simp
  have hlt : off.toNat < 2 ^ 14 := off.isLt
  rw [wordOffset, h]
  simp [Nat.shiftLeft_eq, Nat.shiftRight_eq_div_pow]
  omega

theorem wordOffset_lt (off : Offset) : wordOffset off < 0x4000 := by
  have hlt : off.toNat < 2 ^ 14 := off.isLt
  rw [wordOffset_eq]
  omega

theorem wordOffset_mod (off : Offset) : wordOffset off % 4 = 0 := by
  rw [wordOffset_eq]
  omega

theorem legal_bounds {p : Params} (h : p.legal = true) : 1 ≤ p.nw ∧ p.nw ≤ 1024 ∧ 3 ≤ p.rmax ∧ p.rmax ≤ 256 := by
  simpa [Params.legal, and_assoc] using h

/-- Which register an offset reaches, said once (R42): a control register by its own offset, a word of a file the block has
by its index, or nothing. -/
theorem regAt_cases (p : Params) (off : Offset) :
    (wordOffset off < 0x400 ∧ regAt p off = controlReg (wordOffset off)) ∨
    (∃ j, j < p.rmax ∧ wordOffset off = 0x400 + 4 * j ∧ j < 256 ∧ regAt p off = .rule j) ∨
    (∃ k, k < p.nw ∧ wordOffset off = 0x1000 + 4 * k ∧ k < 1024 ∧ regAt p off = .aData k) ∨
    (∃ k, k < p.nw ∧ wordOffset off = 0x2000 + 4 * k ∧ k < 1024 ∧ regAt p off = .bData k) ∨
    (0x400 ≤ wordOffset off ∧ regAt p off = .absent ∧
      (wordOffset off < 0x800 → 0x400 + 4 * p.rmax ≤ wordOffset off) ∧
      (0x1000 ≤ wordOffset off → wordOffset off < 0x2000 → 0x1000 + 4 * p.nw ≤ wordOffset off) ∧
      (0x2000 ≤ wordOffset off → wordOffset off < 0x3000 → 0x2000 + 4 * p.nw ≤ wordOffset off)) := by
  have hm := wordOffset_mod off
  unfold regAt fileReg
  generalize wordOffset off = w at *
  by_cases h1 : w < 0x400
  · exact .inl ⟨h1, by simp only [h1, if_true]⟩
  by_cases h2 : w < 0x800
  · by_cases h3 : (w - 0x400) / 4 < p.rmax
    · exact .inr (.inl ⟨_, h3, by omega, by omega, by simp only [h1, h2, h3, if_true, if_false]⟩)
    · refine .inr (.inr (.inr (.inr ⟨by omega, by simp only [h1, h2, h3, if_true, if_false], ?_, ?_, ?_⟩))) <;> omega
  by_cases h4 : w < 0x1000
  · refine .inr (.inr (.inr (.inr ⟨by omega, by simp only [h1, h2, h4, if_true, if_false], ?_, ?_, ?_⟩))) <;> omega
  by_cases h5 : w < 0x2000
  · by_cases h6 : (w - 0x1000) / 4 < p.nw
    · exact .inr (.inr (.inl ⟨_, h6, by omega, by omega, by simp only [h1, h2, h4, h5, h6, if_true, if_false]⟩))
    · refine .inr (.inr (.inr (.inr ⟨by omega, by simp only [h1, h2, h4, h5, h6, if_true, if_false], ?_, ?_, ?_⟩))) <;>
        omega
  by_cases h7 : w < 0x3000
  · by_cases h8 : (w - 0x2000) / 4 < p.nw
    · exact .inr (.inr (.inr (.inl ⟨_, h8, by omega, by omega, by simp only [h1, h2, h4, h5, h7, h8, if_true, if_false]⟩)))
    · refine .inr (.inr (.inr (.inr ⟨by omega, by simp only [h1, h2, h4, h5, h7, h8, if_true, if_false], ?_, ?_, ?_⟩))) <;>
        omega
  · refine .inr (.inr (.inr (.inr ⟨by omega, by simp only [h1, h2, h4, h5, h7, if_false], ?_, ?_, ?_⟩))) <;> omega

/-- The control registers, said once: each by its offset, the other words absent. -/
theorem controlReg_cases (w : Nat) :
    (w = 0x00 ∧ controlReg w = .id) ∨ (w = 0x04 ∧ controlReg w = .param) ∨ (w = 0x08 ∧ controlReg w = .cmd) ∨
    (w = 0x0C ∧ controlReg w = .status) ∨ (w = 0x10 ∧ controlReg w = .aLen) ∨ (w = 0x14 ∧ controlReg w = .bLen) ∨
    (w = 0x18 ∧ controlReg w = .nRules) ∨ (w = 0x1C ∧ controlReg w = .rounds) ∨ (w = 0x20 ∧ controlReg w = .evalOut) ∨
    (w = 0x24 ∧ controlReg w = .errInfo) ∨
    (controlReg w = .absent ∧ w ≠ 0x00 ∧ w ≠ 0x04 ∧ w ≠ 0x08 ∧ w ≠ 0x0C ∧ w ≠ 0x10 ∧ w ≠ 0x14 ∧ w ≠ 0x18 ∧ w ≠ 0x1C ∧
      w ≠ 0x20 ∧ w ≠ 0x24) := by
  unfold controlReg
  split <;> simp_all

theorem regAt_control (p : Params) {off : Offset} (h : wordOffset off < 0x400) :
    regAt p off = controlReg (wordOffset off) := if_pos h

theorem regAt_rule {p : Params} (hp : p.legal = true) {off : Offset} {j : Nat} (hj : j < p.rmax)
    (h : wordOffset off = 0x400 + 4 * j) : regAt p off = .rule j := by
  obtain ⟨_, _, _, _⟩ := legal_bounds hp
  rcases regAt_cases p off with ⟨_, _⟩ | ⟨i, _, _, _, e⟩ | ⟨_, _, _, _, _⟩ | ⟨_, _, _, _, _⟩ | ⟨_, _, _, _, _⟩ <;>
    first | omega | (rw [e]; congr 1; omega)

theorem regAt_aData {p : Params} (hp : p.legal = true) {off : Offset} {k : Nat} (hk : k < p.nw)
    (h : wordOffset off = 0x1000 + 4 * k) : regAt p off = .aData k := by
  obtain ⟨_, _, _, _⟩ := legal_bounds hp
  rcases regAt_cases p off with ⟨_, _⟩ | ⟨_, _, _, _, _⟩ | ⟨i, _, _, _, e⟩ | ⟨_, _, _, _, _⟩ | ⟨_, _, _, _, _⟩ <;>
    first | omega | (rw [e]; congr 1; omega)

theorem regAt_bData {p : Params} (hp : p.legal = true) {off : Offset} {k : Nat} (hk : k < p.nw)
    (h : wordOffset off = 0x2000 + 4 * k) : regAt p off = .bData k := by
  obtain ⟨_, _, _, _⟩ := legal_bounds hp
  rcases regAt_cases p off with ⟨_, _⟩ | ⟨_, _, _, _, _⟩ | ⟨_, _, _, _, _⟩ | ⟨i, _, _, _, e⟩ | ⟨_, _, _, _, _⟩ <;>
    first | omega | (rw [e]; congr 1; omega)

/-! ## Stores and host accesses -/

/-- What `MemWrite` can do (R46, R50): accept a command, drop the write, store into an RW register, or nothing. -/
theorem hostWrite_cases (off : Offset) (v : Word) (s : State) :
    (regAt s.params off = .cmd ∧ s.status.busy = false ∧ hostWrite off v s = acceptCommand v s) ∨
    ((regAt s.params off = .cmd ∨ (regAt s.params off).isRW = true) ∧ s.status.busy = true ∧
      hostWrite off v s = dropWrite s) ∨
    ((regAt s.params off).isRW = true ∧ s.status.busy = false ∧
      hostWrite off v s = writeReg (regAt s.params off) v s) ∨
    (regAt s.params off ≠ .cmd ∧ (regAt s.params off).isRW = false ∧ hostWrite off v s = s) := by
  simp only [hostWrite]
  by_cases hc : regAt s.params off = .cmd
  · by_cases hb : s.status.busy = true
    · exact .inr (.inl ⟨.inl hc, hb, by simp [hc, hb]⟩)
    · have hb' : s.status.busy = false := by simpa using hb
      exact .inl ⟨hc, hb', by simp [hc, hb']⟩
  · by_cases hr : (regAt s.params off).isRW = true
    · by_cases hb : s.status.busy = true
      · exact .inr (.inl ⟨.inr hr, hb, by simp [hc, hr, hb]⟩)
      · have hb' : s.status.busy = false := by simpa using hb
        exact .inr (.inr (.inl ⟨hr, hb', by simp [hc, hr, hb']⟩))
    · have hr' : (regAt s.params off).isRW = false := by simpa using hr
      exact .inr (.inr (.inr ⟨hc, hr', by simp [hc, hr']⟩))

/-- A host write while BUSY = 1 sets OVR or does nothing (R50). -/
theorem hostWrite_busy (off : Offset) (v : Word) (s : State) (h : s.status.busy = true) :
    hostWrite off v s = dropWrite s ∨ hostWrite off v s = s := by
  rcases hostWrite_cases off v s with ⟨_, hb, _⟩ | ⟨_, _, he⟩ | ⟨_, hb, _⟩ | ⟨_, _, he⟩
  · simp [h] at hb
  · exact .inl he
  · simp [h] at hb
  · exact .inr he

/-- A write to an RW register of an idle block stores into it and does nothing else (R46). -/
theorem hostWrite_idle {off : Offset} {s : State} (v : Word) (hb : s.status.busy = false)
    (hr : (regAt s.params off).isRW = true) : hostWrite off v s = writeReg (regAt s.params off) v s := by
  have hc : regAt s.params off ≠ .cmd := by intro h; rw [h] at hr; cases hr
  simp [hostWrite, hc, hr, hb]

theorem busBit_lt (bus : BusLanes) (off : Offset) (width : NarrowWidth) (i : Nat) (h : i < width.bits) :
    busBit bus off width i < 32 := by
  unfold busBit
  split
  · rename_i ha
    cases width <;> simp only [NarrowWidth.bits] at h ha <;> omega
  · exact (Config.selectedBit off width.bits i).isLt

/-- What a narrower read receives, said once: the bits of the word the bus selects, zeros above them (R45). -/
theorem selectLanes_getLsbD (bus : BusLanes) (off : Offset) (width : NarrowWidth) (w : Word) (i : Nat) :
    (selectLanes bus off width w).getLsbD i = (decide (i < width.bits) && w.getLsbD (busBit bus off width i)) := by
  have hb : width.bits ≤ 32 := by cases width <;> decide
  by_cases h : i < width.bits
  · have : i < 32 := by omega
    rw [selectLanes, BitVec.getLsbD_setWidth, BitVec.getLsbD_ofBoolListLE]
    simp [h, this]
  · rw [selectLanes, BitVec.getLsbD_setWidth, BitVec.getLsbD_ofBoolListLE]
    simp [h]

/-- On a bus that numbers its lanes an aligned narrower read receives the lanes of its offset (R49). -/
theorem selectLanes_numbered (off : Offset) (width : NarrowWidth) (w : Word) (h : off.toNat % (width.bits / 8) = 0) :
    selectLanes .numbered off width w =
      BitVec.ofNat 32 (w.toNat / 2 ^ (8 * (off.toNat % 4)) % 2 ^ width.bits) := by
  apply BitVec.eq_of_getLsbD_eq
  intro i hi
  have hp : busBit .numbered off width i = 8 * (off.toNat % 4) + i := by simp [busBit, h]
  rw [selectLanes_getLsbD, hp, BitVec.getLsbD_ofNat, Nat.testBit_mod_two_pow, Nat.testBit_div_two_pow]
  simp [hi, BitVec.getLsbD, Nat.add_comm]

/-- A store changes operand registers only (R46). -/
theorem writeReg_frame (r : Reg) (v : Word) (s : State) :
    (writeReg r v s).params = s.params ∧ (writeReg r v s).status = s.status ∧
    (writeReg r v s).evalOut = s.evalOut ∧ (writeReg r v s).errInfo = s.errInfo ∧
    (writeReg r v s).phase = s.phase ∧ (writeReg r v s).work = s.work ∧
    (writeReg r v s).cyclesLeft = s.cyclesLeft ∧ (writeReg r v s).draws = s.draws ∧
    (writeReg r v s).inputs = s.inputs ∧ (writeReg r v s).reads = s.reads := by
  cases r <;> simp [writeReg]

/-! ## The register files keep their sizes -/

theorem writeReg_filesFit {s : State} (h : s.FilesFit) (r : Reg) (v : Word) : (writeReg r v s).FilesFit := by
  cases r <;> exact ⟨h.params, by simpa [writeReg] using h.slots, by simpa [writeReg] using h.aData,
    by simpa [writeReg] using h.bData⟩

theorem hostWrite_filesFit {s : State} (h : s.FilesFit) (off : Offset) (v : Word) : (hostWrite off v s).FilesFit := by
  rcases hostWrite_cases off v s with ⟨_, _, he⟩ | ⟨_, _, he⟩ | ⟨_, _, he⟩ | ⟨_, _, he⟩ <;> rw [he]
  · exact ⟨h.params, h.slots, h.aData, h.bData⟩
  · exact ⟨h.params, h.slots, h.aData, h.bData⟩
  · exact writeReg_filesFit h _ _
  · exact h

theorem deliver_filesFit {s : State} (h : s.FilesFit) (off : Offset) (v : Word) : (deliver off v s).FilesFit :=
  ⟨h.params, h.slots, h.aData, h.bData⟩

theorem resetBlock_filesFit {s : State} (h : s.FilesFit) : (resetBlock s).FilesFit :=
  ⟨h.params, by simp, by simp, by simp⟩

theorem failCommand_filesFit {s : State} (h : s.FilesFit) (c : Cause) (x : Word) : (failCommand c x s).FilesFit :=
  ⟨h.params, h.slots, h.aData, h.bData⟩

theorem evalDone_filesFit {s : State} (h : s.FilesFit) (out : Bool) : (evalDone out s).FilesFit :=
  ⟨h.params, h.slots, h.aData, h.bData⟩

theorem encodeDone_filesFit {s : State} (h : s.FilesFit) (r : BitSeq × BitSeq) : (encodeDone r s).FilesFit :=
  ⟨h.params, h.slots, by simp, by simp⟩

/-! ## Commands -/

/-- ENCODE's checks pass exactly on the operands R133 asks for. -/
theorem validate_eq_none_iff (s : State) : validate s = none ↔ s.EncodeReady := by
  have hn : s.nRules = 0 ↔ s.nRules.toNat = 0 := by
    constructor
    · intro h; simp [h]
    · intro h; exact BitVec.eq_of_toNat_eq (by simpa using h)
  have hl : s.aLen = 0 ↔ s.aLen.toNat = 0 := by
    constructor
    · intro h; simp [h]
    · intro h; exact BitVec.eq_of_toNat_eq (by simpa using h)
  have hf : s.firstBadSlot = none ↔ ∀ j, j < s.nRules.toNat → (s.slot j).toNat ≤ 255 := by
    simp [State.firstBadSlot]
  constructor
  · intro h
    have h1 : ¬ s.nRules = 0 := by rintro h1; rw [validate, if_pos h1] at h; cases h
    have h2 : ¬ s.params.rmax < s.nRules.toNat := by rintro h2; rw [validate, if_neg h1, if_pos h2] at h; cases h
    cases hb : s.firstBadSlot with
    | some j => rw [validate, if_neg h1, if_neg h2, hb] at h; cases h
    | none =>
      simp only [validate, h1, h2, hb, if_false] at h
      split_ifs at h with h3 h4 h5 h6
      rw [hn] at h1
      simp only [not_or, hl] at h4
      exact ⟨by omega, by omega, hf.mp hb, not_not.mp h3, by omega, by omega, by omega, by omega⟩
  · rintro ⟨a, b, c, d, e, f, g, i⟩
    have h1 : ¬ s.nRules = 0 := by rw [hn]; omega
    have h4 : ¬ (s.aLen = 0 ∨ s.params.nmax < s.aLen.toNat) := by rw [hl]; omega
    simp only [validate, h1, if_false, show ¬ s.params.rmax < s.nRules.toNat by omega, hf.mpr c, h4,
      show ¬ 2 ^ s.aLen.toNat ≤ s.aInt by omega, show ¬ 2 ^ s.aLen.toNat ≤ s.bInt by omega, not_not.mpr d]

/-- What a command can do: end with an error, or finish with its own result (R76, R91, R112). -/
theorem exec_cases (i : Instr) (s : State) :
    (∃ c x, exec i s = .next (failCommand c x s)) ∨
    (∃ rule l c r, i = .eval rule l c r ∧ rule.toNat ≤ 255 ∧
      exec i s = .next (evalDone (evaluateRule (rule.setWidth 8) l c r) s)) ∨
    (i = .encode ∧ s.EncodeReady ∧ exec i s = .next (encodeDone (encodeResult s) s)) := by
  cases i with
  | eval rule l c r =>
    by_cases h : 255 < rule.toNat
    · exact .inl ⟨.ruleRange, 0xFFFF#16 ++ rule, by simp [exec, execEval, h]⟩
    · exact .inr (.inl ⟨rule, l, c, r, rfl, by omega, by simp [exec, execEval, h]⟩)
  | encode =>
    cases h : validate s with
    | none => exact .inr (.inr ⟨rfl, (validate_eq_none_iff s).mp h, by simp [exec, execEncode, h]⟩)
    | some cx => exact .inl ⟨cx.1, cx.2, by simp [exec, execEncode, h]⟩

theorem completeCommand_cases (w : Word) (s : State) :
    (∃ c x, completeCommand w s = .next (failCommand c x s)) ∨
    (∃ rule l c r, decode w = .instr (.eval rule l c r) ∧ rule.toNat ≤ 255 ∧
      completeCommand w s = .next (evalDone (evaluateRule (rule.setWidth 8) l c r) s)) ∨
    (decode w = .instr .encode ∧ s.EncodeReady ∧ completeCommand w s = .next (encodeDone (encodeResult s) s)) := by
  cases h : decode w with
  | illegal why => exact .inl ⟨.illegalCommand, w, by simp [completeCommand, h, execIllegal]⟩
  | instr i =>
    have he : completeCommand w s = exec i s := by simp [completeCommand, h]
    rw [he]
    rcases exec_cases i s with h1 | ⟨rule, l, c, r, hi, hr, h2⟩ | ⟨hi, hr, h3⟩
    · exact .inl h1
    · exact .inr (.inl ⟨rule, l, c, r, by rw [hi], hr, h2⟩)
    · exact .inr (.inr ⟨by rw [hi], hr, h3⟩)

/-! ## A step -/

/-- What an arrival can do: it is refused, or it answers a next state by one of the operations. -/
theorem performInput_cases {x : Input} {s t : State} (h : performInput x s = .next t) :
    (∃ off v, x = .write off v ∧ t = hostWrite off v s) ∨
    (∃ off v, t = deliver off v s) ∨
    (x = .wait ∧ t = pollWait s) ∨ (x = .reset ∧ t = resetBlock s) ∨ (x = .quiet ∧ t = s) := by
  cases x with
  | write off v => exact .inl ⟨off, v, rfl, by simpa [performInput] using h.symm⟩
  | read off => exact .inr (.inl ⟨off, _, by simpa [performInput, hostRead] using h.symm⟩)
  | narrowWrite off width v => simp [performInput] at h
  | narrowRead off width => exact .inr (.inl ⟨off, _, by simpa [performInput, hostNarrowRead] using h.symm⟩)
  | wait => exact .inr (.inr (.inl ⟨rfl, by simpa [performInput] using h.symm⟩))
  | reset => exact .inr (.inr (.inr (.inl ⟨rfl, by simpa [performInput] using h.symm⟩)))
  | quiet => exact .inr (.inr (.inr (.inr ⟨rfl, by simpa [performInput] using h.symm⟩)))

/-- What a step can do: nothing arrives at an idle block, an arrival at an idle block, a completion, or a cycle of a
running command with or without an arrival. -/
theorem step_cases (s : State) :
    (s.phase = .idle ∧ s.inputs = [] ∧ step s = .next s) ∨
    (∃ x rest, s.phase = .idle ∧ s.inputs = x :: rest ∧ step s = performInput x { s with inputs := rest }) ∨
    (∃ w, s.Completing w ∧ step s = completeCommand w s) ∨
    (∃ w left, s.phase = .busy w ∧ s.cyclesLeft = left + 1 ∧ s.inputs = [] ∧ step s = .next (busyTick w left s)) ∨
    (∃ w left x rest, s.phase = .busy w ∧ s.cyclesLeft = left + 1 ∧ s.inputs = x :: rest ∧
      step s = performInput x { busyTick w left s with inputs := rest }) := by
  unfold step cycle
  cases hp : s.phase with
  | idle =>
    cases hi : s.inputs with
    | nil => exact .inl ⟨rfl, rfl, by simp [arrive, hi]⟩
    | cons x rest => exact .inr (.inl ⟨x, rest, rfl, rfl, by simp only [arrive, hi, hp]⟩)
  | busy w =>
    cases hc : s.cyclesLeft with
    | zero => exact .inr (.inr (.inl ⟨w, ⟨hp, hc⟩, rfl⟩))
    | succ left =>
      cases hi : s.inputs with
      | nil => exact .inr (.inr (.inr (.inl ⟨w, left, rfl, rfl, rfl, by simp [arrive, hi]⟩)))
      | cons x rest => exact .inr (.inr (.inr (.inr ⟨w, left, x, rest, rfl, rfl, rfl, by simp [arrive, hi]⟩)))

/-- What an arrival other than a reset does while a command runs: it may set OVR, deliver a word or wait on, and leaves the
command, its operands and its results alone (R37, R50). -/
theorem performInput_busy {x : Input} {s t : State} (hb : s.status.busy = true) (hx : x ≠ .reset)
    (h : performInput x s = .next t) :
    t.params = s.params ∧ t.operands = s.operands ∧ t.evalOut = s.evalOut ∧ t.errInfo = s.errInfo ∧
    t.phase = s.phase ∧ t.work = s.work ∧ t.cyclesLeft = s.cyclesLeft ∧
    (t.inputs = s.inputs ∨ (x = .wait ∧ t.inputs = .wait :: s.inputs)) ∧
    (t.status = s.status ∨ t.status = s.status.overrun) := by
  rcases performInput_cases h with ⟨off, v, _, rfl⟩ | ⟨off, v, rfl⟩ | ⟨hw, rfl⟩ | ⟨hr, rfl⟩ | ⟨_, rfl⟩
  · rcases hostWrite_busy off v s hb with e | e <;> rw [e]
    · exact ⟨rfl, rfl, rfl, rfl, rfl, rfl, rfl, .inl rfl, .inr rfl⟩
    · exact ⟨rfl, rfl, rfl, rfl, rfl, rfl, rfl, .inl rfl, .inl rfl⟩
  · exact ⟨rfl, rfl, rfl, rfl, rfl, rfl, rfl, .inl rfl, .inl rfl⟩
  · rw [show pollWait s = { s with inputs := .wait :: s.inputs } from if_pos hb]
    exact ⟨rfl, rfl, rfl, rfl, rfl, rfl, rfl, .inr ⟨hw, rfl⟩, .inl rfl⟩
  · exact absurd hr hx
  · exact ⟨rfl, rfl, rfl, rfl, rfl, rfl, rfl, .inl rfl, .inl rfl⟩

/-! ## Several steps -/

theorem runSteps_next {s t : State} (n : Nat) (h : step s = .next t) : runSteps (n + 1) s = runSteps n t := by
  simp only [runSteps, h]

/-- The model's own run is the host's. -/
theorem runSteps_eq_run (n : Nat) : ∀ s : State, runSteps n s = Host.Core.run Sys2Proof.core n s := by
  induction n with
  | zero => intro s; rfl
  | succ n ih =>
    intro s
    cases h : step s with
    | next t =>
      have hc : Sys2Proof.core.step s = .next t := h
      simp only [runSteps, h, Host.Core.run]
      rw [ih t]
      split <;> simp_all
      cases hc; rfl
    | fault f => cases f
    | refused r =>
      have hc : Sys2Proof.core.step s = .refused r := h
      simp only [runSteps, h, Host.Core.run]
      split <;> simp_all
      cases hc; rfl

end Sys2Proof.Machine
end

