-- ==== Sys2Proof/Laws/PerInstr.lean ====
section
/-! SUPPORT. Statements made per command: each command's word is of its own row of the opcode table, and of no other. -/

namespace Sys2Proof

/-- The row of spec/opcode_table.json a command's words are of. -/
def Instr.row : Instr → OpcodeRow
  | .eval _ _ _ _ => evalRow
  | .encode => encodeRow

/-- The command's word has its row's fixed bits (R65), and its row stands in the table. -/
def Laws.WordOfItsRow.Statement (i : Instr) : Prop := i.row.covers (encode i) = true ∧ i.row ∈ opcodeTable

theorem Laws.WordOfItsRow.eval (rule : HalfWord) (left center right : Bool) :
    Laws.WordOfItsRow.Statement (.eval rule left center right) := by
  refine ⟨(evalRow_covers_iff _).mpr ?_, by simp [Instr.row, opcodeTable]⟩
  rw [and_eq_iff_bits]
  intro i hi
  interval_cases i <;> cases left <;> cases center <;> cases right <;> simp [encode, bitWord]

theorem Laws.WordOfItsRow.encode : Laws.WordOfItsRow.Statement .encode :=
  ⟨by decide, by simp [Instr.row, opcodeTable]⟩

end Sys2Proof
end

