-- ==== Sys2Proof/Tests/Slice0.lean ====
section
/-! SUPPORT. Small tests of the model, their expected values from spec/95_test_vectors.md or by hand from the rules; then a
witness for the hypotheses of each statement that has some. -/

namespace Sys2Proof.Tests
open Sys2Proof Sys2Proof.Machine

/-! ## Helpers -/

/-- An idle block of the spec's test configuration with the operands of an ENCODE in its registers. -/
def idleAt (n a b : Nat) (rs : List HalfWord) (rounds : Nat) : State :=
  { State.reset with
    aLen := BitVec.ofNat 16 n, bLen := BitVec.ofNat 16 n
    nRules := BitVec.ofNat 16 rs.length, rounds := BitVec.ofNat 32 rounds
    ruleSlots := (rs ++ List.replicate 4 0).take 4
    aData := natToWords 2 a, bData := natToWords 2 b }

/-- The operands of V1.6. -/
def golden : State := idleAt 2 1 2 [45] 1

/-- Operands at the top of every range: n = NMAX, NRULES = RMAX, values 2^64 - 1, ROUNDS = 2^32 - 1. -/
def topmost : State := idleAt 64 (2 ^ 64 - 1) (2 ^ 64 - 1) [45, 75, 89, 255] (2 ^ 32 - 1)

/-- A block running the command word `w` with `left` cycles of its LATENCY left. -/
def runningFor (left : Nat) (w : Word) (s : State) : State := { acceptCommand w s with cyclesLeft := left }

/-- A block at which one access is about to arrive. -/
def meeting (x : Input) (s : State) : State := { s with inputs := [x] }

/-- What `f` sees of the next state, if there is one. -/
def after {α : Type} (f : State → α) : Host.Outcome State Fault Refusal → Option α
  | .next t => some (f t)
  | .fault _ => none
  | .refused _ => none

/-- STATUS and ERRINFO. -/
def outcome (s : State) : Word × Word := (s.status.word, s.errInfo)

/-! ## Well-formedness: an ill-formed term for each check (R69, R70, R71) -/

theorem test_source_rule_too_large : (SourceCommand.eval 65536 0 0 0).wellFormed = false := by decide
theorem test_source_left_not_a_bit : (SourceCommand.eval 45 2 0 0).wellFormed = false := by decide
theorem test_source_center_not_a_bit : (SourceCommand.eval 45 0 2 0).wellFormed = false := by decide
theorem test_source_right_not_a_bit : (SourceCommand.eval 45 0 0 2).wellFormed = false := by decide
theorem test_source_idx_too_large : (SourceCommand.evalIdx 45 8).wellFormed = false := by decide
theorem test_source_idx_rule_too_large : (SourceCommand.evalIdx 65536 7).wellFormed = false := by decide
theorem test_source_rule_above_255_is_accepted : assemble (.eval 256 0 0 0) = some 0x01000001 := by decide
theorem test_source_idx_form : assemble (.evalIdx 45 5) = some 0x002D0501 := by decide
theorem test_script_write_outside_the_window : (HostStmt.wr 0x4000 0).wellFormed = false := by decide
theorem test_script_value_wider_than_a_word : (HostStmt.wr 0 (2 ^ 32)).wellFormed = false := by decide
theorem test_script_read_outside_the_window : (HostStmt.rd 0x4000).wellFormed = false := by decide
theorem test_pseudo_negative_rounds : (Pseudo.setRounds (-1)).wellFormed Config.referenceParams = false := by decide
theorem test_pseudo_rule_too_large : (Pseudo.evalW 65536 0 0 0).wellFormed Config.referenceParams = false := by decide
theorem test_pseudo_length_is_written_whole : (Pseudo.loadA 1 (2 ^ 32)).wellFormed Config.referenceParams = false := by
  decide

/-! ## Decoding: words written out from the encodings of R61, R65 (V2.3, V2.4) -/

-- RULE = 45 in [31:16]; reserved 0; left 1, center 0, right 1 in [10:8]; reserved 0; OP = 1.
theorem test_decode_eval_bit_by_bit :
    decode 0b0000000000101101_00000_1_0_1_0000_0001 = .instr (.eval 45 true false true) := by decide
theorem test_decode_eval_each_neighbour :
    decode 0x00000401 = .instr (.eval 0 true false false) ∧ decode 0x00000201 = .instr (.eval 0 false true false) ∧
    decode 0x00000101 = .instr (.eval 0 false false true) := by decide
-- All bits above OP = 2 are 0.
theorem test_decode_encode_bit_by_bit : decode 0b0000000000000000_0000000000000010 = .instr .encode := by decide
theorem test_decode_illegal :
    decode 0x002D0511 = .illegal .evalReservedBits ∧ decode 0x002D0D01 = .illegal .evalReservedBits ∧
    decode 0x80000002 = .illegal .encodeReservedBits ∧ decode 0x00000012 = .illegal .encodeReservedBits ∧
    decode 0x00000003 = .illegal .opcode ∧ decode 0xFFFFFFFF = .illegal .opcode := by decide
theorem test_listing_of_an_illegal_word :
    (disassemble 0xFFFFFFFA).text = ".illegal 0xFFFFFFFA" ∧ (disassemble 0x002D0501).text = "EVAL 45, 1, 0, 1" := by decide

/-! ## One step of each command -/

-- V1.1
theorem test_eval_success :
    after (fun t => (outcome t, t.evalOut)) (step (State.reset.withFetchWord 32 0x002D0501)) =
      some ((0x00001002, 0), true) := by decide
-- V1.5, V2.3: EVAL_OUT stays 1
theorem test_eval_rule_range :
    after (fun t => (outcome t, t.evalOut)) (step (State.withFetchWord { State.reset with evalOut := true } 32 0x01000001)) =
      some ((0x00001316, 0xFFFF0100), true) := by decide
-- V2.6, row 7: seven rounds under three rules, n = 5
theorem test_encode_success :
    after (fun t => (outcome t, t.aInt, t.bInt)) (step ((idleAt 5 0x16 0x0D [45, 75, 89] 7).withFetchWord 32 2)) =
      some ((0x00002002, 0), 0x0C, 0x18) := by decide
-- V2.6, the rows with n = 33: the sequence crosses a word boundary and rotates right
theorem test_encode_across_words :
    after (fun t => (t.aData, t.bData)) (step ((idleAt 33 (2 ^ 32) 1 [240] 1).withFetchWord 32 2)) =
      some ([0x80000000, 0], [0, 1]) := by decide
-- V1.2
theorem test_round_robin : (List.range 7).map (ruleOfRound [45, 75, 89]) = [45, 75, 89, 45, 75, 89, 45] := by decide
-- V2.3
theorem test_illegal_word :
    after (fun t => (outcome t, t.evalOut)) (step (State.withFetchWord { State.reset with evalOut := true } 32 0x80000002)) =
      some ((0x00002736, 0x80000002), true) := by decide

/-! ## One step of each access (V2.9) -/

theorem test_write_reserved_bits_and_low_address_bits :
    after (fun t => t.aLen) (step (meeting (.write 0x010 0xFFFF0005) State.reset)) = some 5 ∧
    after (fun t => t.aData) (step (meeting (.write 0x1003 9) State.reset)) = some [9, 0] := by decide
theorem test_read_delivers_the_word :
    after (fun t => t.reads) (step (meeting (.read 0x004) State.reset)) = some [0x00040040] ∧
    after (fun t => t.reads) (step (meeting (.read 0x410) State.reset)) = some [0] := by decide
-- By hand from R49: lane 1 of ID = 0x52324F41 is 0x4F, lanes 2 and 3 are 0x5232.
theorem test_narrow_read_lanes :
    after (fun t => t.reads) (step (meeting (.narrowRead 0x001 .byte) State.reset)) = some [0x4F] ∧
    after (fun t => t.reads) (step (meeting (.narrowRead 0x002 .half) State.reset)) = some [0x5232] := by decide
theorem test_busy_write_is_dropped :
    after (fun t => (t.rounds, t.status.ovr)) (step (meeting (.write 0x01C 5) (runningFor 1 2 golden))) =
      some (1, true) := by decide
-- RUN is a CMD write of 2 and a WAIT (R71).
theorem test_run_expansion : Pseudo.run.expand Config.referenceParams = [.wr 8 2, .wait] := by decide
theorem test_read_back : readBack 2 [1, 5] = 2 ^ 32 + 5 := by decide

/-! ## Witnesses: states and operands that meet the hypotheses of the statements -/

theorem ready_golden : golden.EncodeReady := (validate_eq_none_iff golden).mp (by decide)
theorem ready_topmost : topmost.EncodeReady := (validate_eq_none_iff topmost).mp (by decide)
theorem ready_shortest : (idleAt 1 0 1 [0] 0).EncodeReady := (validate_eq_none_iff _).mp (by decide)
theorem files_golden : golden.FilesFit := ⟨by decide, by decide, by decide, by decide⟩
theorem files_topmost : topmost.FilesFit := ⟨by decide, by decide, by decide, by decide⟩

/-- A running ENCODE after one of its rounds: an invariant state that is neither idle nor fresh. -/
def halfway : State := { runningFor 1 2 (idleAt 2 1 2 [45, 75] 2) with work := some ⟨[true, true], [true, true], 1⟩ }

theorem inv_halfway : halfway.Inv where
  files := ⟨by decide, by decide, by decide, by decide⟩
  status := ⟨by decide, by decide, fun h => absurd h (by decide)⟩
  phase := ⟨fun w h => (by cases h; decide), fun h => (by cases h)⟩
  work := by
    constructor
    · intro k h; cases h; exact ⟨⟨2, rfl, by decide⟩, by decide⟩
    all_goals intro k h; cases h; decide

theorem inv_golden : golden.Inv where
  files := files_golden
  status := ⟨by decide, by decide, fun h => absurd h (by decide)⟩
  phase := ⟨fun w h => (by cases h), fun _ => ⟨rfl, rfl⟩⟩
  work := by constructor <;> intro k h <;> cases h

/-- The state an ENCODE with an empty RuleSet leaves. -/
def failed : State := State.reset.errorOutcome 1 1 0

theorem inv_failed : failed.Inv where
  files := ⟨by decide, by decide, by decide, by decide⟩
  status := ⟨by decide, fun h => absurd h (by decide), fun _ => ⟨by decide, .emptyRuleset, by decide⟩⟩
  phase := ⟨fun w h => (by cases h), fun _ => ⟨by decide, rfl⟩⟩
  work := by constructor <;> intro k h <;> cases h

theorem witness_DecodeOfEncodeIsTheCommand :
    (Instr.eval 0xFFFF true true true).wellFormed = true ∧ (Instr.encode).wellFormed = true := by decide

theorem witness_EncodeOfDecodeIsTheWord :
    decode 0xFFFF0701 = .instr (.eval 0xFFFF true true true) ∧ decode 2 = .instr .encode := by decide

theorem witness_DecodeByMatchAndMask :
    (0xFFFF0701 : Word) &&& 0x0000F8FF = 0x00000001 ∧
    ((0xFFFF0801 : Word) &&& 0x0000F8FF ≠ 0x00000001 ∧ (0xFFFF0801 : Word) ≠ 0x00000002) := by decide

theorem witness_AssembleOfDisassembleIsTheWord :
    decode 0xFFFF0701 = .instr (.eval 0xFFFF true true true) ∧ decode 2 = .instr .encode := by decide

theorem witness_StepRunsTheDecodedCommand :
    (golden.withFetchWord 32 2).Completing 2 ∧ decode 2 = .instr .encode ∧
    (golden.withFetchWord 32 0xFFFF0701).Completing 0xFFFF0701 ∧
    decodeTableWord 32 0xFFFF0701 = some (.eval 0xFFFF true true true) ∧ decodeTableWord 32 2 = some .encode :=
  ⟨⟨rfl, rfl⟩, by decide, ⟨rfl, rfl⟩, by decide, by decide⟩

theorem witness_IllegalWordCompletesWithCauseSeven :
    (golden.withFetchWord 32 3).Completing 3 ∧ decode 3 = .illegal .opcode ∧
    (golden.withFetchWord 32 0x12).Completing 0x12 ∧ decode 0x12 = .illegal .encodeReservedBits ∧
    (golden.withFetchWord 32 0x11).Completing 0x11 ∧ decode 0x11 = .illegal .evalReservedBits :=
  ⟨⟨rfl, rfl⟩, by decide, ⟨rfl, rfl⟩, by decide, ⟨rfl, rfl⟩, by decide⟩

theorem witness_IdleBlockKeepsItsState : golden.phase = .idle ∧ golden.inputs = [] := ⟨rfl, rfl⟩

theorem witness_EvalWritesTheIndexedBit : (255 : HalfWord).toNat ≤ 255 := by decide

theorem witness_EvalFrame :
    (∃ t, exec (.eval 255 true true true) golden = .next t ∧ (255 : HalfWord).toNat ≤ 255) ∧
    (∃ t, exec (.eval 256 true true true) golden = .next t ∧ 255 < (256 : HalfWord).toNat) ∧
    wordOffset 0x0010 ≠ 0x00C ∧ wordOffset 0x0010 ≠ 0x020 ∧ wordOffset 0x0010 ≠ 0x024 :=
  ⟨⟨_, rfl, by decide⟩, ⟨_, rfl, by decide⟩, by decide, by decide, by decide⟩

theorem witness_EvalDependsOnItsWordOnly :
    ∃ t t', decode 0x00FF0701 = .instr (.eval 255 true true true) ∧
      exec (.eval 255 true true true) (acceptCommand 0x00FF0701 golden) = .next t ∧
      exec (.eval 255 true true true) (acceptCommand 0x00FF0701 State.reset) = .next t' ∧
      (255 : HalfWord).toNat ≤ 255 := ⟨_, _, by decide, rfl, rfl, by decide⟩

theorem witness_RuleTableIsComplete : (7 : Nat) < 8 ∧ (0 : RuleId) ≠ 128 := by decide

theorem witness_RoundLooksUpEveryNeighbourhood : 1 ≤ [true].length ∧ 0 < [true].length := by decide

theorem witness_RoundsRunInRoundRobinOrder : ([45, 75, 89] : List RuleId)[5 % 3]? = some 89 := by decide

theorem witness_ConversionsUndoEachOther : 1 ≤ 1 ∧ 1 < 2 ^ 1 ∧ 0 < 1 ∧ 1 ≤ 64 ∧ 2 ^ 64 - 1 < 2 ^ 64 ∧ 63 < 64 := by decide

theorem witness_RoundInIntegerForm : 1 ≤ [true].length ∧ 0 < [true].length := by decide

theorem witness_SequencePositionsLieInTheDataWords :
    topmost.FilesFit ∧ 64 ≤ topmost.params.nmax ∧ 0 < 64 ∧ 63 < 64 :=
  ⟨files_topmost, by decide, by decide, by decide⟩

theorem witness_WorkingStateFollowsTheTransform :
    0 ≤ topmost.rounds.toNat ∧ 2 ^ 32 - 1 ≤ topmost.rounds.toNat := by decide

theorem witness_EncodeWritesTheTransform :
    golden.EncodeReady ∧ topmost.EncodeReady ∧ (idleAt 1 0 1 [0] 0).EncodeReady ∧ 3 < topmost.nRules.toNat :=
  ⟨ready_golden, ready_topmost, ready_shortest, by decide⟩

theorem witness_RulesetSizeOutOfRangeFails :
    (idleAt 2 1 2 [] 5).nRules = 0 ∧ (idleAt 2 1 2 [1, 2, 3, 4, 5] 1).nRules ≠ 0 ∧
    (idleAt 2 1 2 [1, 2, 3, 4, 5] 1).params.rmax < (idleAt 2 1 2 [1, 2, 3, 4, 5] 1).nRules.toNat := by decide

theorem witness_RuleOutOfRangeFails :
    (idleAt 2 1 2 [1, 2, 255, 256] 1).nRules.toNat ≤ (idleAt 2 1 2 [1, 2, 255, 256] 1).params.rmax ∧
    3 < (idleAt 2 1 2 [1, 2, 255, 256] 1).nRules.toNat ∧ 255 < ((idleAt 2 1 2 [1, 2, 255, 256] 1).slot 3).toNat ∧
    (∀ j', j' < 3 → ((idleAt 2 1 2 [1, 2, 255, 256] 1).slot j').toNat ≤ 255) ∧ 255 < (256 : HalfWord).toNat := by decide

theorem witness_EncodeOfDifferentLengthsFails :
    let s := { topmost with bLen := 63 }
    1 ≤ s.nRules.toNat ∧ s.nRules.toNat ≤ s.params.rmax ∧
    (∀ j, j < s.nRules.toNat → (s.slot j).toNat ≤ 255) ∧ s.aLen ≠ s.bLen := by decide

theorem witness_EncodeOfABadLengthFails :
    let s := { topmost with aLen := 65, bLen := 65 }
    let s0 := { topmost with aLen := 0, bLen := 0 }
    (1 ≤ s.nRules.toNat ∧ s.nRules.toNat ≤ s.params.rmax ∧ (∀ j, j < s.nRules.toNat → (s.slot j).toNat ≤ 255) ∧
      s.aLen = s.bLen ∧ s.params.nmax < s.aLen.toNat) ∧
    (1 ≤ s0.nRules.toNat ∧ s0.nRules.toNat ≤ s0.params.rmax ∧ (∀ j, j < s0.nRules.toNat → (s0.slot j).toNat ≤ 255) ∧
      s0.aLen = s0.bLen ∧ s0.aLen = 0) := by decide

theorem witness_EncodeOfALargeValueFails :
    let s := idleAt 2 4 0 [45] 1
    let s' := idleAt 2 3 4 [45] 1
    (1 ≤ s.nRules.toNat ∧ s.nRules.toNat ≤ s.params.rmax ∧ (∀ j, j < s.nRules.toNat → (s.slot j).toNat ≤ 255) ∧
      s.aLen = s.bLen ∧ 1 ≤ s.aLen.toNat ∧ s.aLen.toNat ≤ s.params.nmax ∧ 2 ^ s.aLen.toNat ≤ s.aInt) ∧
    (1 ≤ s'.nRules.toNat ∧ s'.nRules.toNat ≤ s'.params.rmax ∧ (∀ j, j < s'.nRules.toNat → (s'.slot j).toNat ≤ 255) ∧
      s'.aLen = s'.bLen ∧ 1 ≤ s'.aLen.toNat ∧ s'.aLen.toNat ≤ s'.params.nmax ∧
      s'.aInt < 2 ^ s'.aLen.toNat ∧ 2 ^ s'.aLen.toNat ≤ s'.bInt) := by decide

theorem witness_EncodeOfZeroRoundsIsTheIdentity :
    (State.FilesFit { golden with rounds := 0 } ∧ State.EncodeReady { golden with rounds := 0 } ∧
      ({ golden with rounds := 0 } : State).rounds = 0) ∧
    (¬ State.reset.EncodeReady ∧ State.reset.rounds = 0) :=
  ⟨⟨⟨by decide, by decide, by decide, by decide⟩, (validate_eq_none_iff _).mp (by decide), rfl⟩,
    fun h => absurd ((validate_eq_none_iff _).mpr h) (by decide), rfl⟩

theorem witness_EncodeResultFitsItsLength :
    golden.EncodeReady ∧ 31 < 32 ∧ golden.aLen.toNat ≤ 32 * 0 + 2 ∧ golden.aLen.toNat ≤ 32 * 1 :=
  ⟨ready_golden, by decide, by decide, by decide⟩

theorem witness_SequencesEvolveIndependently :
    ∃ t t' u u', golden.EncodeReady ∧ State.EncodeReady { golden with bData := [3, 0] } ∧
      State.EncodeReady { golden with aData := [3, 0] } ∧
      exec .encode golden = .next t ∧ exec .encode { golden with bData := [3, 0] } = .next t' ∧
      exec .encode golden = .next u ∧ exec .encode { golden with aData := [3, 0] } = .next u' :=
  ⟨_, _, _, _, ready_golden, (validate_eq_none_iff _).mp (by decide), (validate_eq_none_iff _).mp (by decide),
    rfl, rfl, rfl, rfl⟩

theorem witness_SlotsBeyondTheRulesetAreNotRead : golden.nRules.toNat ≤ 1 := by decide

theorem witness_EncodeDependsOnItsOperandsOnly :
    golden.operands = ({ golden with evalOut := true, draws := 7 } : State).operands ∧
    golden.params = ({ golden with evalOut := true, draws := 7 } : State).params := ⟨rfl, rfl⟩

theorem witness_EncodeFrame :
    (∃ t, exec .encode golden = .next t) ∧ (∃ t, exec .encode State.reset = .next t) ∧ golden.EncodeReady ∧
    ¬ State.reset.EncodeReady ∧ wordOffset 0x0010 ≠ 0x00C ∧ wordOffset 0x0010 ≠ 0x024 ∧
    ¬ (0x1000 ≤ wordOffset 0x0010 ∧ wordOffset 0x0010 < 0x3000) :=
  ⟨⟨_, rfl⟩, ⟨_, rfl⟩, ready_golden, fun h => absurd ((validate_eq_none_iff _).mpr h) (by decide), by decide, by decide,
    by decide⟩

theorem witness_ErrorsChangeStatusAndInfoOnly :
    ∃ t, golden.status.err = false ∧ completeCommand 3 golden = .next t ∧ t.status.err = true :=
  ⟨_, by decide, rfl, rfl⟩

theorem witness_CmdWriteAcceptsTheWord :
    wordOffset 0x008 = 0x008 ∧ wordOffset 0x00B = 0x008 ∧ golden.status.busy = false := by decide

/-- The first and the last offset of each region of RW registers in the test configuration, and those beside them. -/
theorem witness_BusyWritesAreDropped :
    golden.params.legal = true ∧ (runningFor 1 2 golden).status.busy = true ∧
    wordOffset 0x008 = 0x008 ∧ wordOffset 0x010 = 0x010 ∧ wordOffset 0x014 = 0x014 ∧ wordOffset 0x018 = 0x018 ∧
    wordOffset 0x01F = 0x01C ∧
    (0x400 ≤ wordOffset 0x400 ∧ wordOffset 0x40F < 0x400 + 4 * golden.params.rmax) ∧
    (0x1000 ≤ wordOffset 0x1000 ∧ wordOffset 0x1007 < 0x1000 + 4 * golden.params.nw) ∧
    (0x2000 ≤ wordOffset 0x2000 ∧ wordOffset 0x2007 < 0x2000 + 4 * golden.params.nw) ∧
    ¬ (wordOffset 0x410 < 0x400 + 4 * golden.params.rmax) ∧ ¬ (wordOffset 0x1008 < 0x1000 + 4 * golden.params.nw) ∧
    ¬ (wordOffset 0x2008 < 0x2000 + 4 * golden.params.nw) := by decide

/-- The last slot and the last data words, and offsets whose low two bits are not 0. -/
theorem witness_IdleWriteIsReadBack :
    golden.FilesFit ∧ golden.status.busy = false ∧ wordOffset 0x013 = 0x010 ∧ wordOffset 0x014 = 0x014 ∧
    wordOffset 0x018 = 0x018 ∧ wordOffset 0x01F = 0x01C ∧
    (3 < golden.params.rmax ∧ wordOffset 0x40F = 0x400 + 4 * 3 ∧ 0 ≠ 3) ∧
    (1 < golden.params.nw ∧ wordOffset 0x1007 = 0x1000 + 4 * 1) ∧
    (1 < golden.params.nw ∧ wordOffset 0x2007 = 0x2000 + 4 * 1) ∧
    (0x400 ≤ wordOffset 0x40F ∧ wordOffset 0x40F < 0x400 + 4 * golden.params.rmax) ∧
    (0x1000 ≤ wordOffset 0x1007 ∧ wordOffset 0x1007 < 0x1000 + 4 * golden.params.nw) ∧
    (0x2000 ≤ wordOffset 0x2007 ∧ wordOffset 0x2007 < 0x2000 + 4 * golden.params.nw) ∧
    (wordOffset 0x00C ≠ 0x008 ∧ wordOffset 0x010 ≠ wordOffset 0x00C) :=
  ⟨files_golden, by decide⟩

theorem witness_AbsentWordsReadZeroAndIgnoreWrites :
    golden.params.legal = true ∧ (0x028 ≤ wordOffset 0x028 ∧ wordOffset 0x3FF < 0x400) ∧
    (0x400 + 4 * golden.params.rmax ≤ wordOffset 0x410 ∧ wordOffset 0xFFF < 0x1000) ∧
    (0x1000 + 4 * golden.params.nw ≤ wordOffset 0x1008 ∧ wordOffset 0x1FFF < 0x2000) ∧
    0x2000 + 4 * golden.params.nw ≤ wordOffset 0x2008 ∧ 0x2000 + 4 * golden.params.nw ≤ wordOffset 0x3FFF := by decide

theorem witness_IdentificationRegistersAreConstant :
    golden.params.legal = true ∧ wordOffset 0x003 = 0x000 ∧ wordOffset 0x007 = 0x004 := by decide

theorem witness_StatusReadsAsItsFields : wordOffset 0x00C = 0x00C ∧ wordOffset 0x00F = 0x00C := by decide

theorem witness_ReadOnlyResultsReadAsTheirFields :
    wordOffset 0x00B = 0x008 ∧ wordOffset 0x020 = 0x020 ∧ wordOffset 0x027 = 0x024 := by decide

/-- A narrower access at an idle block and at one in the middle of an ENCODE, on both kinds of bus. -/
theorem witness_AccessWidthsAndLowAddressBits :
    (0x1003 : Offset).toNat / 4 = (0x1000 : Offset).toNat / 4 ∧
    (meeting (.narrowWrite 3 .byte 7) golden).arriving = some (.narrowWrite 3 .byte 7) ∧
    (meeting (.narrowWrite 3 .byte 7) halfway).arriving = some (.narrowWrite 3 .byte 7) ∧
    15 < NarrowWidth.half.bits ∧ ({ halfway with bus := .other } : State).bus = .other ∧
    halfway.bus = .numbered ∧ (0x1002 : Offset).toNat % 2 = 0 := by decide

theorem witness_ReadsHaveNoSideEffect :
    readsFree 0x1000 golden = false ∧ readsFree 0x010 (runningFor 1 2 golden) = false := by decide

theorem witness_BusyDataReadsAreUnspecified :
    golden.params.legal = true ∧ (runningFor 1 2 golden).status.busy = true ∧
    (0x1000 ≤ wordOffset 0x1000 ∧ wordOffset 0x1007 < 0x1000 + 4 * golden.params.nw) ∧
    (0x2000 ≤ wordOffset 0x2000 ∧ wordOffset 0x2007 < 0x2000 + 4 * golden.params.nw) ∧
    ¬ ((0x1000 ≤ wordOffset 0x1008 ∧ wordOffset 0x1008 < 0x1000 + 4 * golden.params.nw) ∨
      (0x2000 ≤ wordOffset 0x1008 ∧ wordOffset 0x1008 < 0x2000 + 4 * golden.params.nw)) := by decide

/-- A reset arrives at an idle block and at one in the middle of an ENCODE. -/
theorem witness_ResetClearsEveryRegister :
    (meeting .reset golden).Resetting ∧ (meeting .reset halfway).Resetting := ⟨rfl, rfl⟩

theorem witness_CommandsAfterReset :
    decodeTableWord 32 0x00FF0701 = some (.eval 255 true true true) ∧ (255 : HalfWord).toNat ≤ 255 := by decide

theorem witness_ResetMeetsTheInvariant :
    Params.legal ⟨1, 3⟩ = true ∧ Params.legal ⟨1024, 256⟩ = true ∧ Params.legal ⟨2, 4⟩ = true := by decide

theorem witness_StepKeepsTheInvariant :
    (∃ t, halfway.Inv ∧ step halfway = .next t) ∧ (∃ t, golden.Inv ∧ step golden = .next t) :=
  ⟨⟨_, inv_halfway, rfl⟩, ⟨_, inv_golden, rfl⟩⟩

/-- A write to another register than CMD neither resets the block nor has a command accepted. -/
theorem no_accepting_of_write {s : State} {off : Offset} {v : Word} (h : s.arriving = some (.write off v))
    (hr : regAt s.params off ≠ .cmd) : ¬ s.Resetting ∧ ∀ w, ¬ s.Accepting w := by
  constructor
  · intro hreset
    rw [State.Resetting, h] at hreset
    cases hreset
  · rintro w ⟨off', h', hc, _⟩
    rw [h] at h'
    cases h'
    exact hr hc

/-- An ENCODE whose latency is over, its working state that of no round yet. -/
def finishing : State := { runningFor 0 2 golden with work := some (loadWork golden) }

theorem inv_finishing : finishing.Inv where
  files := ⟨by decide, by decide, by decide, by decide⟩
  status := ⟨by decide, by decide, fun h => absurd h (by decide)⟩
  phase := ⟨fun w h => (by cases h; decide), fun h => (by cases h)⟩
  work := by
    constructor
    · intro k h; cases h; exact ⟨⟨2, rfl, by decide⟩, by decide⟩
    all_goals intro k h; cases h; decide

theorem witness_OperandsStayWhileBusy :
    ∃ t, finishing.Inv ∧ finishing.status.busy = true ∧ ¬ finishing.Resetting ∧ step finishing = .next t ∧
      t.operands ≠ finishing.operands :=
  ⟨_, inv_finishing, rfl, (by intro h; cases h), rfl, by
    intro h
    have : [3#32, 0#32] = [1#32, 0#32] := congrArg (fun o => o.2.2.2.2.2.1) h
    exact absurd this (by decide)⟩

theorem witness_EvalOutChangesOnlyByEval :
    (∃ t, step (golden.withFetchWord 32 0x002D0501) = .next t ∧
      t.evalOut ≠ (golden.withFetchWord 32 0x002D0501).evalOut) ∧
    (∃ t, step (meeting .reset { golden with evalOut := true }) = .next t ∧
      t.evalOut ≠ (meeting .reset { golden with evalOut := true }).evalOut) :=
  ⟨⟨_, rfl, by decide⟩, ⟨_, rfl, by decide⟩⟩

/-- A lost write (OVR rises), a later access (OVR stays), an accepted command and a reset (OVR falls). -/
theorem witness_OverrunIsSticky :
    (∃ t, step (meeting (.write 0x2007 5) (runningFor 1 2 golden)) = .next t ∧
      (meeting (.write 0x2007 5) (runningFor 1 2 golden)).status.ovr = false ∧ t.status.ovr = true) ∧
    (∃ t, step (meeting (.write 0x020 5) (dropWrite golden)) = .next t ∧
      ¬ (meeting (.write 0x020 5) (dropWrite golden)).Resetting ∧
      (∀ v, ¬ (meeting (.write 0x020 5) (dropWrite golden)).Accepting v) ∧
      (meeting (.write 0x020 5) (dropWrite golden)).status.ovr = true) ∧
    (∃ t, step (meeting (.write 0x00B 2) (dropWrite golden)) = .next t ∧
      (meeting (.write 0x00B 2) (dropWrite golden)).Accepting 2) ∧
    (∃ t, step (meeting .reset (dropWrite golden)) = .next t ∧ (meeting .reset (dropWrite golden)).Resetting) ∧
    (∃ t, completeCommand 2 golden = .next t) :=
  have h := no_accepting_of_write (s := meeting (.write 0x020 5) (dropWrite golden)) rfl (by decide)
  ⟨⟨_, rfl, rfl, rfl⟩, ⟨_, rfl, h.1, h.2, rfl⟩, ⟨_, rfl, ⟨_, rfl, by decide, rfl⟩⟩, ⟨_, rfl, rfl⟩, ⟨_, rfl⟩⟩

theorem witness_LastopNamesTheAcceptedWord :
    (∃ t, step (meeting (.write 0x008 0x3F) golden) = .next t ∧ (meeting (.write 0x008 0x3F) golden).Accepting 0x3F) ∧
    (∃ t, step (meeting .reset golden) = .next t ∧ (meeting .reset golden).Resetting) ∧
    (∃ t, step (meeting (.write 0x020 5) golden) = .next t ∧ ¬ (meeting (.write 0x020 5) golden).Resetting ∧
      ∀ v, ¬ (meeting (.write 0x020 5) golden).Accepting v) :=
  have h := no_accepting_of_write (s := meeting (.write 0x020 5) golden) rfl (by decide)
  ⟨⟨_, rfl, ⟨_, rfl, by decide, rfl⟩⟩, ⟨_, rfl, rfl⟩, ⟨_, rfl, h.1, h.2⟩⟩

theorem witness_ErrorStatusStaysUntilTheNextCommand :
    ∃ t, (meeting (.write 0x010 5) failed).Inv ∧ (meeting (.write 0x010 5) failed).status.err = true ∧
      step (meeting (.write 0x010 5) failed) = .next t ∧ ¬ (meeting (.write 0x010 5) failed).Resetting ∧
      ∀ v, ¬ (meeting (.write 0x010 5) failed).Accepting v :=
  have h := no_accepting_of_write (s := meeting (.write 0x010 5) failed) rfl (by decide)
  ⟨_, ⟨⟨inv_failed.files.1, inv_failed.files.2, inv_failed.files.3, inv_failed.files.4⟩,
    ⟨inv_failed.status.1, inv_failed.status.2, inv_failed.status.3⟩, ⟨inv_failed.phase.1, inv_failed.phase.2⟩,
    ⟨inv_failed.work.1, inv_failed.work.2, inv_failed.work.3, inv_failed.work.4⟩⟩, rfl, rfl, h.1, h.2⟩

/-- An ENCODE with two cycles left, during which a write is lost and a read is made; then a reset would arrive. -/
def disturbed : State := { runningFor 2 2 golden with inputs := [.write 0x010 5, .read 0x1000, .reset] }

theorem witness_EveryCommandCompletes :
    disturbed.phase = .busy 2 ∧ disturbed.status.busy = true ∧
    ∀ x ∈ disturbed.inputs.take disturbed.cyclesLeft, x.harmless = true := by decide

/-- The same for an ILLEGAL word. -/
def disturbedIllegal : State := { runningFor 2 3 golden with inputs := [.write 0x010 5, .read 0x1000, .reset] }

theorem witness_ResultsDoNotDependOnTiming :
    (∃ u, disturbed.phase = .busy 2 ∧ disturbed.status.busy = true ∧
      (∀ x ∈ disturbed.inputs.take disturbed.cyclesLeft, x.harmless = true) ∧
      (∀ i, decode 2 = .instr i → exec i disturbed = .next u) ∧
      (∀ why, decode 2 = .illegal why → u = disturbed.errorOutcome 3 7 2)) ∧
    (disturbedIllegal.phase = .busy 3 ∧ disturbedIllegal.status.busy = true ∧
      (∀ x ∈ disturbedIllegal.inputs.take disturbedIllegal.cyclesLeft, x.harmless = true) ∧
      (∀ i, decode 3 = .instr i → exec i disturbedIllegal = .next (disturbedIllegal.errorOutcome 3 7 3))) := by
  have h2 : decode 2 = .instr .encode := by decide
  have h3 : decode 3 = .illegal .opcode := by decide
  refine ⟨⟨encodeDone (encodeResult disturbed) disturbed, by decide, by decide, by decide, fun i h => ?_, fun why h => ?_⟩,
    by decide, by decide, by decide, fun i h => ?_⟩
  · rw [h2] at h
    cases h
    rfl
  · rw [h2] at h
    cases h
  · rw [h3] at h
    cases h

theorem witness_WaitPollsUntilIdle :
    ((meeting .wait golden).inputs = .wait :: [] ∧ (meeting .wait golden).phase = .idle ∧
      (meeting .wait golden).status.busy = false) ∧
    ((meeting .wait (runningFor 1 2 golden)).inputs = .wait :: [] ∧
      (meeting .wait (runningFor 1 2 golden)).phase = .busy 2 ∧
      (meeting .wait (runningFor 1 2 golden)).cyclesLeft = 0 + 1 ∧
      (meeting .wait (runningFor 1 2 golden)).status.busy = true) := by decide

/-- An access arrives at an idle block and at one in the middle of an ENCODE; a running block meets nothing. -/
theorem witness_OnlyNarrowWritesStopAStep :
    ((meeting (.read 0x010) golden).inputs = .read 0x010 :: [] ∧ (meeting (.read 0x010) golden).phase = .idle) ∧
    ((meeting (.write 0x010 5) halfway).inputs = .write 0x010 5 :: [] ∧
      (meeting (.write 0x010 5) halfway).phase = .busy 2 ∧ (meeting (.write 0x010 5) halfway).cyclesLeft = 0 + 1) ∧
    (halfway.phase = .busy 2 ∧ halfway.cyclesLeft = 0 + 1 ∧ halfway.inputs = []) := by decide

theorem witness_LoadASetsTheInteger :
    golden.FilesFit ∧ golden.phase = .idle ∧ golden.status.busy = false ∧ golden.inputs = [] ∧
    2 ^ 64 - 1 < 2 ^ golden.params.nmax ∧ 2 ^ 16 - 1 < 2 ^ 16 :=
  ⟨files_golden, rfl, rfl, rfl, by decide, by decide⟩

end Sys2Proof.Tests
end

section
/-! PROOF. The obligations of spec/00_scope.md: accepting a command word (R59), and what a running command leaves, whatever its
LATENCY and whatever arrives while it runs (R10, R37, R53, R141). -/

namespace Sys2Proof.Machine

/-! ## Accepting a command word -/

theorem regAt_eq_cmd (p : Params) {off : Offset} (h : wordOffset off = 0x008) : regAt p off = .cmd := by
  rw [regAt_control p (by omega), h, controlReg]

/-- A CMD write to a block that is not busy is an acceptance (R59). -/
theorem hostWrite_cmd_idle {off : Offset} {s : State} (w : Word) (h : wordOffset off = 0x008)
    (hb : s.status.busy = false) : hostWrite off w s = acceptCommand w s := by
  simp [hostWrite, regAt_eq_cmd s.params h, hb]

/-- Settles O35: the offset reaches CMD, and `acceptCommand` writes the fields R59 lists. -/
theorem cmdWriteAcceptsTheWord : Obligations.CmdWriteAcceptsTheWord :=
  fun _ _ w hoff hb => hostWrite_cmd_idle w hoff hb

/-! ## What a command's effect depends on -/

/-- The part of a state that a command's effect reads or writes: all but OVR, the working state, the count of cycles and what
is outside the block. A cycle of a running command keeps it, so the effect may be taken before that cycle or after it. -/
def State.commandView (s : State) : State :=
  { s with
    status := { s.status with ovr := false }
    bus := .numbered, work := none, cyclesLeft := 0, draws := 0, inputs := [], reads := [] }

@[simp] theorem commandView_phase (s : State) : s.commandView.phase = s.phase := rfl
@[simp] theorem commandView_busy (s : State) : s.commandView.status.busy = s.status.busy := rfl
@[simp] theorem commandView_validate (s : State) : validate s.commandView = validate s := rfl

@[simp] theorem busyTick_commandView (w : Word) (left : Nat) (s : State) :
    (busyTick w left s).commandView = s.commandView := rfl

/-- Equality of views from the facts that `performInput_busy` states. -/
theorem commandView_eq {s t : State} (hparams : t.params = s.params) (hops : t.operands = s.operands)
    (hout : t.evalOut = s.evalOut) (hinfo : t.errInfo = s.errInfo) (hphase : t.phase = s.phase)
    (hstatus : t.status = s.status ∨ t.status = s.status.overrun) : t.commandView = s.commandView := by
  have hovr : { t.status with ovr := false } = { s.status with ovr := false } := by
    rcases hstatus with h | h <;> rw [h]
    rfl
  simp only [State.operands, Prod.mk.injEq] at hops
  simp only [State.commandView, hparams, hops, hout, hinfo, hphase, hovr]

/-- A command's effect acts on the view alone: its checks and its results read nothing else. -/
theorem exec_commandView {i : Instr} {s u : State} (h : exec i s = .next u) :
    exec i s.commandView = .next u.commandView := by
  cases i with
  | eval rule l c r =>
    by_cases hr : 255 < rule.toNat
    · simp only [exec, execEval, hr, if_true] at h ⊢
      cases h
      rfl
    · simp only [exec, execEval, hr, if_false] at h ⊢
      cases h
      rfl
  | encode =>
    cases hv : validate s with
    | none =>
      simp only [exec, execEncode, commandView_validate, hv] at h ⊢
      cases h
      rfl
    | some cx =>
      simp only [exec, execEncode, commandView_validate, hv] at h ⊢
      cases h
      rfl

theorem completeCommand_instr {w : Word} {i : Instr} (h : decode w = .instr i) (s : State) :
    completeCommand w s = exec i s := by
  rw [completeCommand, h]

theorem completeCommand_illegal {w : Word} {why : IllegalWord} (h : decode w = .illegal why) (s : State) :
    completeCommand w s = .next (s.errorOutcome 3 7 w) := by
  rw [completeCommand, h]
  rfl

theorem completeCommand_commandView {w : Word} {s u : State} (h : completeCommand w s = .next u) :
    completeCommand w s.commandView = .next u.commandView := by
  cases hd : decode w with
  | instr i =>
    rw [completeCommand_instr hd] at h ⊢
    exact exec_commandView h
  | illegal why =>
    rw [completeCommand_illegal hd] at h ⊢
    cases h
    rfl

/-- Every command completes, with an error or without, and leaves the block idle (R76, R91, R112). -/
theorem completeCommand_next (w : Word) (s : State) :
    ∃ t, completeCommand w s = .next t ∧ t.phase = .idle ∧ t.status.busy = false ∧ t.status.done = true := by
  rcases completeCommand_cases w s with ⟨c, x, h⟩ | ⟨rule, l, c, r, _, _, h⟩ | ⟨_, _, h⟩ <;>
    exact ⟨_, h, rfl, rfl, rfl⟩

/-! ## A running command's cycles -/

theorem step_completing {s : State} {w : Word} (h : s.Completing w) : step s = completeCommand w s := by
  obtain ⟨hphase, hleft⟩ := h
  simp only [step, cycle, hphase, hleft]

theorem step_running {s : State} {w : Word} {left : Nat} (hphase : s.phase = .busy w) (hleft : s.cyclesLeft = left + 1) :
    step s = arrive (busyTick w left s) := by
  simp only [step, cycle, hphase, hleft]

/-- A command is running, and nothing that arrives before its completion ends it or stops the model. -/
structure State.Undisturbed (s : State) (w : Word) : Prop where
  phase : s.phase = .busy w
  busy : s.status.busy = true
  harmless : ∀ x ∈ s.inputs.take s.cyclesLeft, x.harmless = true

theorem performInput_harmless {x : Input} (hx : x.harmless = true) (s : State) :
    x ≠ .reset ∧ ∃ t, performInput x s = .next t := by
  cases x with
  | narrowWrite off width v => cases hx
  | reset => cases hx
  | write off v => exact ⟨nofun, _, rfl⟩
  | read off => exact ⟨nofun, _, rfl⟩
  | narrowRead off width => exact ⟨nofun, _, rfl⟩
  | wait => exact ⟨nofun, _, rfl⟩
  | quiet => exact ⟨nofun, _, rfl⟩

/-- A harmless arrival at a busy block keeps the view and the count of cycles. It is taken from the line of arrivals, but for
a WAIT, which stays there. -/
theorem arrive_busy {s : State} (hb : s.status.busy = true) (hx : ∀ x ∈ s.inputs.head?, x.harmless = true) :
    ∃ t, arrive s = .next t ∧ t.commandView = s.commandView ∧ t.cyclesLeft = s.cyclesLeft ∧
      (t.inputs = s.inputs.tail ∨ t.inputs = s.inputs) := by
  cases hi : s.inputs with
  | nil => exact ⟨s, by simp only [arrive, hi], rfl, rfl, .inr hi⟩
  | cons x rest =>
    obtain ⟨hreset, t, ht⟩ := performInput_harmless (hx x (by simp [hi])) { s with inputs := rest }
    obtain ⟨hparams, hops, hout, hinfo, hphase, _, hleft, hin, hstatus⟩ :=
      performInput_busy (s := { s with inputs := rest }) hb hreset ht
    refine ⟨t, by simp only [arrive, hi, ht], commandView_eq hparams hops hout hinfo hphase hstatus, hleft, ?_⟩
    rcases hin with h | ⟨rfl, h⟩
    · exact .inl h
    · exact .inr h

/-- One cycle of a running command that does not complete it. -/
theorem step_undisturbed {s : State} {w : Word} {left : Nat} (hs : s.Undisturbed w)
    (hleft : s.cyclesLeft = left + 1) :
    ∃ t, step s = .next t ∧ t.Undisturbed w ∧ t.cyclesLeft = left ∧ t.commandView = s.commandView := by
  have hharm := hs.harmless
  rw [hleft] at hharm
  have hhead : ∀ x ∈ (busyTick w left s).inputs.head?, x.harmless = true := by
    intro x hx
    refine hharm x ?_
    obtain ⟨rest, hrest⟩ := List.head?_eq_some_iff.mp (Option.mem_def.mp hx)
    rw [busyTick_inputs] at hrest
    simp [hrest]
  obtain ⟨t, ht, hview, hcycles, hin⟩ := arrive_busy (s := busyTick w left s) hs.busy hhead
  rw [busyTick_commandView] at hview
  refine ⟨t, (step_running hs.phase hleft).trans ht, ⟨?_, ?_, ?_⟩, hcycles, hview⟩
  · rw [← commandView_phase, hview, commandView_phase, hs.phase]
  · rw [← commandView_busy, hview, commandView_busy, hs.busy]
  · rw [hcycles, busyTick_cyclesLeft]
    intro x hx
    refine hharm x ?_
    rcases hin with h | h <;> rw [h, busyTick_inputs] at hx
    · rw [← List.drop_one, List.take_drop, Nat.add_comm] at hx
      exact List.mem_of_mem_drop hx
    · exact List.take_subset_take_left _ (Nat.le_succ left) hx

/-- After its LATENCY an undisturbed command completes, and its effect on the view is that of the state it was running in. -/
theorem runSteps_undisturbed {w : Word} (n : Nat) : ∀ {s : State}, s.Undisturbed w → s.cyclesLeft = n →
    ∃ t, runSteps (n + 1) s = .next t ∧ completeCommand w s.commandView = .next t.commandView := by
  induction n with
  | zero =>
    intro s hs hleft
    obtain ⟨t, ht, _⟩ := completeCommand_next w s
    exact ⟨t, runSteps_next 0 ((step_completing ⟨hs.phase, hleft⟩).trans ht), completeCommand_commandView ht⟩
  | succ left ih =>
    intro s hs hleft
    obtain ⟨s', hstep, hs', hleft', hview⟩ := step_undisturbed hs hleft
    obtain ⟨t, hrun, hcomplete⟩ := ih hs' hleft'
    exact ⟨t, (runSteps_next _ hstep).trans hrun, hview ▸ hcomplete⟩

/-! ## The obligations -/

/-- Settles O56: the effect that the last of the steps takes leaves the block idle, by induction on the cycles left. -/
theorem everyCommandCompletes : Obligations.EveryCommandCompletes := by
  intro s w hphase hbusy hharm
  obtain ⟨t, hrun, hcomplete⟩ := runSteps_undisturbed s.cyclesLeft ⟨hphase, hbusy, hharm⟩ rfl
  obtain ⟨t', ht', hidle, hnotBusy, hdone⟩ := completeCommand_next w s.commandView
  cases hcomplete.symm.trans ht'
  exact ⟨t, hrun, hidle, hnotBusy, hdone⟩

/-- Settles O57: the completing step's state has the view of the effect on the first state, since every cycle before it
keeps the view. -/
theorem resultsDoNotDependOnTiming : Obligations.ResultsDoNotDependOnTiming := by
  intro s u w hphase hbusy hharm hinstr hillegal
  obtain ⟨t, hrun, hcomplete⟩ := runSteps_undisturbed s.cyclesLeft ⟨hphase, hbusy, hharm⟩ rfl
  have heffect : completeCommand w s = .next u := by
    cases hd : decode w with
    | instr i => rw [completeCommand_instr hd, hinstr i hd]
    | illegal why => rw [completeCommand_illegal hd, hillegal why hd]
  have hview : t.commandView = u.commandView := by
    have h := hcomplete.symm.trans (completeCommand_commandView heffect)
    injection h
  exact ⟨t, hrun, (congrArg State.operands hview :), (congrArg State.evalOut hview :),
    (congrArg State.errInfo hview :), (congrArg State.phase hview :), (congrArg State.status hview :)⟩

end Sys2Proof.Machine
end

section
/-! PROOF. Arrivals case by case, and O55: the working state (R38) reaches nothing else, since every operation of a step
commutes with replacing it and a completing command drops it unread. -/

namespace Sys2Proof.Machine

/-! ## Arrivals, case by case -/

theorem hostWrite_accepted {off : Offset} {s : State} (v : Word) (hcmd : regAt s.params off = .cmd)
    (hbusy : s.status.busy = false) : hostWrite off v s = acceptCommand v s := by
  simp [hostWrite, hcmd, hbusy]

theorem hostWrite_dropped {off : Offset} {s : State} (v : Word)
    (hreg : regAt s.params off = .cmd ∨ (regAt s.params off).isRW = true) (hbusy : s.status.busy = true) :
    hostWrite off v s = dropWrite s := by
  rcases hreg with h | h <;> simp [hostWrite, h, hbusy]

theorem hostWrite_ignored {off : Offset} {s : State} (v : Word) (hcmd : regAt s.params off ≠ .cmd)
    (hrw : (regAt s.params off).isRW = false) : hostWrite off v s = s := by
  simp [hostWrite, hcmd, hrw]

theorem pollWait_busy {s : State} (h : s.status.busy = true) : pollWait s = { s with inputs := .wait :: s.inputs } :=
  if_pos h

theorem pollWait_idle {s : State} (h : s.status.busy = false) : pollWait s = s := by
  simp [pollWait, h]

/-! ## The working state reaches nothing else -/

/-- The state with another working state. -/
def State.withWork (s : State) (k : Option Work) : State := { s with work := k }

@[simp] theorem withWork_inputs (s : State) (k : Option Work) : (s.withWork k).inputs = s.inputs := rfl

/-- Two outcomes of a step are alike but for the working state. -/
def AgreeButWork (o o' : Host.Outcome State Fault Refusal) : Prop :=
  (∃ t k, o = .next t ∧ o' = .next (t.withWork k)) ∨ (∃ r, o = .refused r ∧ o' = .refused r)

theorem agreeButWork_next {t t' : State} (k : Option Work) (h : t' = t.withWork k) :
    AgreeButWork (.next t) (.next t') := .inl ⟨t, k, rfl, by rw [h]⟩

theorem writeReg_withWork (r : Reg) (v : Word) (s : State) (k : Option Work) :
    writeReg r v (s.withWork k) = (writeReg r v s).withWork k := by
  cases r <;> rfl

theorem hostWrite_withWork (off : Offset) (v : Word) (s : State) (k : Option Work) :
    hostWrite off v (s.withWork k) = (hostWrite off v s).withWork k := by
  rcases hostWrite_cases off v s with ⟨hcmd, hbusy, h⟩ | ⟨hreg, hbusy, h⟩ | ⟨hrw, hbusy, h⟩ | ⟨hcmd, hrw, h⟩ <;> rw [h]
  · exact hostWrite_accepted (s := s.withWork k) v hcmd hbusy
  · exact hostWrite_dropped (s := s.withWork k) v hreg hbusy
  · rw [← writeReg_withWork]
    exact hostWrite_idle (s := s.withWork k) v hbusy hrw
  · exact hostWrite_ignored (s := s.withWork k) v hcmd hrw

theorem pollWait_withWork (s : State) (k : Option Work) : pollWait (s.withWork k) = (pollWait s).withWork k := by
  cases hbusy : s.status.busy with
  | false => rw [pollWait_idle hbusy, pollWait_idle (s := s.withWork k) hbusy]
  | true =>
    rw [pollWait_busy hbusy, pollWait_busy (s := s.withWork k) hbusy]
    rfl

theorem performInput_withWork (x : Input) (s : State) (k : Option Work) :
    AgreeButWork (performInput x s) (performInput x (s.withWork k)) := by
  cases x with
  | write off v => exact agreeButWork_next k (hostWrite_withWork off v s k)
  | read off => exact agreeButWork_next k rfl
  | narrowWrite off width v => exact .inr ⟨_, rfl, rfl⟩
  | narrowRead off width => exact agreeButWork_next k rfl
  | wait => exact agreeButWork_next k (pollWait_withWork s k)
  | reset => exact agreeButWork_next none rfl
  | quiet => exact agreeButWork_next k rfl

theorem arrive_withWork (s : State) (k : Option Work) : AgreeButWork (arrive s) (arrive (s.withWork k)) := by
  cases hi : s.inputs with
  | nil =>
    simp only [arrive, withWork_inputs, hi]
    exact agreeButWork_next k rfl
  | cons x rest =>
    simp only [arrive, withWork_inputs, hi]
    exact performInput_withWork x { s with inputs := rest } k

theorem exec_withWork (i : Instr) (s : State) (k : Option Work) : exec i (s.withWork k) = exec i s := by
  cases i with
  | eval rule l c r => rfl
  | encode =>
    have hchecks : validate (s.withWork k) = validate s := rfl
    simp only [exec, execEncode, hchecks]
    cases validate s <;> rfl

theorem completeCommand_withWork (w : Word) (s : State) (k : Option Work) :
    completeCommand w (s.withWork k) = completeCommand w s := by
  cases hd : decode w with
  | instr i => rw [completeCommand_instr hd, completeCommand_instr hd, exec_withWork]
  | illegal why =>
    rw [completeCommand_illegal hd, completeCommand_illegal hd]
    rfl

theorem step_idle {s : State} (h : s.phase = .idle) : step s = arrive s := by
  simp only [step, cycle, h]

theorem step_withWork (s : State) (k : Option Work) : AgreeButWork (step s) (step (s.withWork k)) := by
  cases hphase : s.phase with
  | idle =>
    rw [step_idle hphase, step_idle (s := s.withWork k) hphase]
    exact arrive_withWork s k
  | busy w =>
    cases hleft : s.cyclesLeft with
    | zero =>
      obtain ⟨t, ht, _⟩ := completeCommand_next w s
      rw [step_completing ⟨hphase, hleft⟩, step_completing (s := s.withWork k) ⟨hphase, hleft⟩,
        completeCommand_withWork, ht]
      exact agreeButWork_next t.work rfl
    | succ left =>
      rw [step_running hphase hleft, step_running (s := s.withWork k) hphase hleft]
      exact arrive_withWork (busyTick w left s) (workAfter w (s.withWork k))

/-- Settles O55: a step agrees with that of the state with another working state, by cases on the phase. -/
theorem workingStateIsUnobservable : Obligations.WorkingStateIsUnobservable := by
  intro s k
  rcases step_withWork s k with ⟨t, k', h, h'⟩ | ⟨r, h, h'⟩ <;> rw [State.withWork] at h' <;> simp only [h, h']
  rfl

end Sys2Proof.Machine
end

section
/-! PROOF. The invariant of the block: the working state as the transform's first rounds (O21), then each operation of a step
keeps the invariant (O47, O48). -/

namespace Sys2Proof.Machine

/-! ## The working state after some rounds -/

/-- The working state after `r` rounds of the transform of the operands in the registers. -/
def State.workAt (s : State) (r : Nat) : Work :=
  { curA := evolve s.ruleSet r (intToSeq s.aInt s.aLen.toNat)
    curB := evolve s.ruleSet r (intToSeq s.bInt s.aLen.toNat)
    rc := BitVec.ofNat 32 r }

theorem loadWork_eq_workAt (s : State) : loadWork s = s.workAt 0 := rfl

theorem workAt_rc_toNat (s : State) {r : Nat} (h : r ≤ s.rounds.toNat) : (s.workAt r).rc.toNat = r := by
  have hlt : r < 2 ^ 32 := lt_of_le_of_lt h s.rounds.isLt
  simp only [State.workAt, BitVec.toNat_ofNat, Nat.mod_eq_of_lt hlt]

theorem advanceWork_workAt (s : State) {r : Nat} (h : r ≤ s.rounds.toNat) :
    advanceWork s.ruleSet (s.workAt r) = s.workAt (r + 1) := by
  have hrc : (s.workAt r).rc + 1 = (s.workAt (r + 1)).rc := (BitVec.ofNat_add r 1).symm
  rw [advanceWork, workAt_rc_toNat s h, hrc]
  rfl

theorem iterate_advanceWork (s : State) {r : Nat} (h : r ≤ s.rounds.toNat) :
    Nat.iterate (advanceWork s.ruleSet) r (loadWork s) = s.workAt r := by
  induction r with
  | zero => exact loadWork_eq_workAt s
  | succ r ih => rw [Function.iterate_succ_apply', ih (by omega), advanceWork_workAt s (by omega)]

/-- Settles O21: by induction on the rounds, the counter staying below 2^32 since `r` is at most ROUNDS. -/
theorem workingStateFollowsTheTransform : Obligations.WorkingStateFollowsTheTransform := by
  intro s r hr
  rw [iterate_advanceWork s hr]
  exact ⟨rfl, workAt_rc_toNat s hr⟩

/-! ## The parts of the invariant -/

theorem workCoherent_of_none {s : State} (h : s.work = none) : s.WorkCoherent := by
  constructor <;> intro k hk <;> rw [h] at hk <;> cases hk

/-- A running ENCODE whose checks pass, at a round of its own, is coherent. -/
theorem workCoherent_of_workAt {s : State} {w : Word} {r : Nat} (hphase : s.phase = .busy w)
    (hencode : decode w = .instr .encode) (hchecks : validate s = none) (hr : r ≤ s.rounds.toNat)
    (hwork : s.work = some (s.workAt r)) : s.WorkCoherent := by
  have hk : ∀ k, s.work = some k → k = s.workAt r := fun k h => Option.some.inj (h.symm.trans hwork)
  have hrc := workAt_rc_toNat s hr
  refine ⟨fun k _ => ⟨⟨w, hphase, hencode⟩, hchecks⟩, fun k h => ?_, fun k h => ?_, fun k h => ?_⟩ <;> rw [hk k h, hrc]
  · exact hr
  · rfl
  · rfl

theorem State.WorkCoherent.eq_workAt {s : State} {k : Work} (h : s.WorkCoherent) (hk : s.work = some k) :
    k.rc.toNat ≤ s.rounds.toNat ∧ k = s.workAt k.rc.toNat := by
  refine ⟨h.counter k hk, ?_⟩
  rw [State.workAt, ← h.curA k hk, ← h.curB k hk, BitVec.ofNat_toNat, BitVec.setWidth_eq]

theorem phaseCoherent_of_idle {s : State} (hphase : s.phase = .idle) (hbusy : s.status.busy = false)
    (hwork : s.work = none) : s.PhaseCoherent :=
  ⟨fun w h => (by rw [hphase] at h; cases h), fun _ => ⟨hbusy, hwork⟩⟩

theorem State.PhaseCoherent.idle_of_not_busy {s : State} (h : s.PhaseCoherent) (hbusy : s.status.busy = false) :
    s.phase = .idle ∧ s.work = none := by
  cases hphase : s.phase with
  | idle => exact ⟨rfl, (h.idle hphase).2⟩
  | busy w =>
    have := (h.busy w hphase).1
    simp [hbusy] at this

/-- An error completion's STATUS and ERRINFO agree (R112). -/
theorem statusCoherent_of_failed {s : State} {st : Status} {c : Cause} (h : s.status = st.failed c) : s.StatusCoherent := by
  constructor <;> rw [h]
  · simp
  · simp
  · exact fun _ => ⟨rfl, c, rfl, rfl⟩

/-- A successful completion keeps the absence of an error (R76, R91). -/
theorem State.StatusCoherent.succeeded {s t : State} (h : s.StatusCoherent) (hbusy : s.status.busy = true)
    (hstatus : t.status = s.status.succeeded) (hinfo : t.errInfo = s.errInfo) : t.StatusCoherent := by
  have herr : s.status.err = false := (h.busy hbusy).2
  constructor <;> rw [hstatus]
  · simp
  · rw [hinfo]
    exact h.clear
  · simp [herr]

/-! ## Every operation of a step keeps the invariant -/

/-- The invariant speaks of the block alone: not of the bus, of EVAL_OUT, of the count of cycles or of the host's side. -/
theorem State.Inv.withHostSide {s : State} (h : s.Inv) (bus : BusLanes) (left draws : Nat) (inputs : List Input)
    (reads : List Word) :
    State.Inv { s with bus := bus, cyclesLeft := left, draws := draws, inputs := inputs, reads := reads } where
  files := ⟨h.files.params, h.files.slots, h.files.aData, h.files.bData⟩
  status := ⟨h.status.busy, h.status.clear, h.status.error⟩
  phase := ⟨h.phase.busy, h.phase.idle⟩
  work := ⟨h.work.running, h.work.counter, h.work.curA, h.work.curB⟩

theorem resetOf_inv {p : Params} (h : p.legal = true) : (State.resetOf p).Inv where
  files := ⟨h, List.length_replicate, List.length_replicate, List.length_replicate⟩
  status := ⟨nofun, fun _ => ⟨rfl, rfl, rfl⟩, nofun⟩
  phase := phaseCoherent_of_idle rfl rfl rfl
  work := workCoherent_of_none rfl

/-- Settles O47: the reset values meet each part of the invariant. -/
theorem resetMeetsTheInvariant : Obligations.ResetMeetsTheInvariant :=
  ⟨resetOf_inv (by decide), fun _ h => resetOf_inv h⟩

theorem resetBlock_inv {s : State} (h : s.Inv) : (resetBlock s).Inv :=
  (resetOf_inv h.files.params).withHostSide ..

theorem deliver_inv {s : State} (h : s.Inv) (off : Offset) (v : Word) : (deliver off v s).Inv :=
  h.withHostSide s.bus s.cyclesLeft _ s.inputs _

theorem pollWait_inv {s : State} (h : s.Inv) : (pollWait s).Inv := by
  cases hbusy : s.status.busy with
  | false => rwa [pollWait_idle hbusy]
  | true =>
    rw [pollWait_busy hbusy]
    exact h.withHostSide s.bus s.cyclesLeft s.draws _ s.reads

theorem dropWrite_inv {s : State} (h : s.Inv) : (dropWrite s).Inv where
  files := ⟨h.files.params, h.files.slots, h.files.aData, h.files.bData⟩
  status := ⟨h.status.busy, h.status.clear, h.status.error⟩
  phase := ⟨h.phase.busy, h.phase.idle⟩
  work := ⟨h.work.running, h.work.counter, h.work.curA, h.work.curB⟩

theorem acceptCommand_inv {s : State} (h : s.Inv) (hbusy : s.status.busy = false) (w : Word) : (acceptCommand w s).Inv where
  files := ⟨h.files.params, h.files.slots, h.files.aData, h.files.bData⟩
  status := ⟨fun _ => ⟨rfl, rfl⟩, fun _ => ⟨rfl, rfl, rfl⟩, nofun⟩
  phase := ⟨fun w' hw => (by cases hw; exact ⟨rfl, rfl⟩), nofun⟩
  work := workCoherent_of_none (h.phase.idle_of_not_busy hbusy).2

theorem writeReg_inv {s : State} (h : s.Inv) (hbusy : s.status.busy = false) (r : Reg) (v : Word) :
    (writeReg r v s).Inv := by
  obtain ⟨hidle, hnone⟩ := h.phase.idle_of_not_busy hbusy
  obtain ⟨_, hstatus, _, hinfo, hphase, hwork, _⟩ := writeReg_frame r v s
  refine ⟨writeReg_filesFit h.files r v, ⟨?_, ?_, ?_⟩, phaseCoherent_of_idle (hphase.trans hidle) ?_ (hwork.trans hnone),
    workCoherent_of_none (hwork.trans hnone)⟩ <;> rw [hstatus]
  · exact h.status.busy
  · rw [hinfo]
    exact h.status.clear
  · exact h.status.error
  · exact hbusy

theorem hostWrite_inv {s : State} (h : s.Inv) (off : Offset) (v : Word) : (hostWrite off v s).Inv := by
  rcases hostWrite_cases off v s with ⟨_, hbusy, e⟩ | ⟨_, _, e⟩ | ⟨_, hbusy, e⟩ | ⟨_, _, e⟩ <;> rw [e]
  · exact acceptCommand_inv h hbusy v
  · exact dropWrite_inv h
  · exact writeReg_inv h hbusy _ v
  · exact h

theorem performInput_inv {x : Input} {s t : State} (h : s.Inv) (ht : performInput x s = .next t) : t.Inv := by
  rcases performInput_cases ht with ⟨off, v, _, rfl⟩ | ⟨off, v, rfl⟩ | ⟨_, rfl⟩ | ⟨_, rfl⟩ | ⟨_, rfl⟩
  · exact hostWrite_inv h off v
  · exact deliver_inv h off v
  · exact pollWait_inv h
  · exact resetBlock_inv h
  · exact h

theorem arrive_inv {s t : State} (h : s.Inv) (ht : arrive s = .next t) : t.Inv := by
  cases hi : s.inputs with
  | nil =>
    simp only [arrive, hi] at ht
    cases ht
    exact h
  | cons x rest =>
    simp only [arrive, hi] at ht
    exact performInput_inv (h.withHostSide s.bus s.cyclesLeft s.draws rest s.reads) ht

/-- A state that has completed a command is idle, so that its files and STATUS are all there is to check. -/
theorem inv_of_idle {s : State} (hfiles : s.FilesFit) (hstatus : s.StatusCoherent) (hphase : s.phase = .idle)
    (hbusy : s.status.busy = false) (hwork : s.work = none) : s.Inv :=
  ⟨hfiles, hstatus, phaseCoherent_of_idle hphase hbusy hwork, workCoherent_of_none hwork⟩

theorem completeCommand_inv {w : Word} {s t : State} (h : s.Inv) (hphase : s.phase = .busy w)
    (ht : completeCommand w s = .next t) : t.Inv := by
  have hbusy : s.status.busy = true := (h.phase.busy w hphase).1
  rcases completeCommand_cases w s with ⟨c, x, e⟩ | ⟨rule, l, m, r, _, _, e⟩ | ⟨_, _, e⟩ <;> cases e.symm.trans ht
  · exact inv_of_idle (failCommand_filesFit h.files c x) (statusCoherent_of_failed rfl) rfl rfl rfl
  · exact inv_of_idle (evalDone_filesFit h.files _) (h.status.succeeded hbusy rfl rfl) rfl rfl rfl
  · exact inv_of_idle (encodeDone_filesFit h.files _) (h.status.succeeded hbusy rfl rfl) rfl rfl rfl

/-- A cycle of a running ENCODE whose checks pass loads the working state or performs its next round. -/
theorem workAfter_eq_workAt {w : Word} {s : State} (h : s.WorkCoherent) (hencode : decode w = .instr .encode)
    (hchecks : validate s = none) : ∃ r, r ≤ s.rounds.toNat ∧ workAfter w s = some (s.workAt r) := by
  rw [workAfter, if_pos ⟨hencode, hchecks⟩]
  cases hwork : s.work with
  | none => exact ⟨0, Nat.zero_le _, congrArg some (loadWork_eq_workAt s)⟩
  | some k =>
    obtain ⟨hle, hk⟩ := h.eq_workAt hwork
    dsimp only
    by_cases hlt : k.rc < s.rounds
    · refine ⟨k.rc.toNat + 1, hlt, ?_⟩
      rw [if_pos hlt, ← advanceWork_workAt s hle, ← hk]
    · exact ⟨k.rc.toNat, hle, by rw [if_neg hlt, ← hk]⟩

theorem busyTick_inv {w : Word} {s : State} (h : s.Inv) (hphase : s.phase = .busy w) (left : Nat) :
    (busyTick w left s).Inv := by
  refine ⟨⟨h.files.params, h.files.slots, h.files.aData, h.files.bData⟩,
    ⟨h.status.busy, h.status.clear, h.status.error⟩, ⟨h.phase.busy, fun hidle => ?_⟩, ?_⟩
  · rw [busyTick_phase, hphase] at hidle
    cases hidle
  · by_cases hrun : decode w = .instr .encode ∧ validate s = none
    · obtain ⟨r, hr, hwork⟩ := workAfter_eq_workAt h.work hrun.1 hrun.2
      exact workCoherent_of_workAt (s := busyTick w left s) hphase hrun.1 hrun.2 hr hwork
    · have hwork : (busyTick w left s).work = s.work := if_neg hrun
      constructor <;> rw [hwork]
      · exact h.work.running
      · exact h.work.counter
      · exact h.work.curA
      · exact h.work.curB

theorem step_inv {s t : State} (h : s.Inv) (ht : step s = .next t) : t.Inv := by
  cases hphase : s.phase with
  | idle => exact arrive_inv h (step_idle hphase ▸ ht)
  | busy w =>
    cases hleft : s.cyclesLeft with
    | zero => exact completeCommand_inv h hphase (step_completing ⟨hphase, hleft⟩ ▸ ht)
    | succ left => exact arrive_inv (busyTick_inv h hphase left) (step_running hphase hleft ▸ ht)

/-- Settles O48: an arrival, a completion and a running command's cycle each keep the invariant. -/
theorem stepKeepsTheInvariant : Obligations.StepKeepsTheInvariant :=
  fun _ _ h ht => step_inv h ht

end Sys2Proof.Machine
end

section
/-! PROOF. What a step can do to a single register: the operands (O49), EVAL_OUT (O50), OVR (O51) and LASTOP (O52); and the
command a completing step runs (O7). -/

namespace Sys2Proof.Machine

/-! ## A completing step -/

theorem withFetchWord_completing (s : State) (nbits w : Nat) :
    (s.withFetchWord nbits w).Completing (tableWord nbits w) := ⟨rfl, rfl⟩

theorem decode_tableWord {nbits w : Nat} {i : Instr} (h : decodeTableWord nbits w = some i) :
    decode (tableWord nbits w) = .instr i := by
  unfold decodeTableWord at h
  cases hd : decode (tableWord nbits w) with
  | instr j =>
    rw [hd] at h
    exact congrArg _ (Option.some.inj h)
  | illegal why =>
    rw [hd] at h
    cases h

theorem step_completing_instr {s : State} {w : Word} {i : Instr} (h : s.Completing w) (hd : decode w = .instr i) :
    step s = exec i s := by
  rw [step_completing h, completeCommand_instr hd]

/-- Settles O7: the step of a completing command is `exec` of its word, and a placed word completes at once. -/
theorem stepRunsTheDecodedCommand : Obligations.StepRunsTheDecodedCommand :=
  ⟨fun _ _ _ h hd => step_completing_instr h hd,
    fun s w _ hd => step_completing_instr (withFetchWord_completing s 32 w) (decode_tableWord hd)⟩

/-! ## A step, by what arrives in it -/

/-- The state that a step's arrival is taken from: that before the step, but for the working state, the count of cycles and the
line of arrivals. -/
def State.TickOf (u s : State) : Prop :=
  ∃ work left inputs, u = { s with work := work, cyclesLeft := left, inputs := inputs }

theorem State.TickOf.params {u s : State} (h : u.TickOf s) : u.params = s.params := by
  obtain ⟨_, _, _, rfl⟩ := h
  rfl

theorem State.TickOf.status {u s : State} (h : u.TickOf s) : u.status = s.status := by
  obtain ⟨_, _, _, rfl⟩ := h
  rfl

theorem State.TickOf.evalOut {u s : State} (h : u.TickOf s) : u.evalOut = s.evalOut := by
  obtain ⟨_, _, _, rfl⟩ := h
  rfl

theorem State.TickOf.operands {u s : State} (h : u.TickOf s) : u.operands = s.operands := by
  obtain ⟨_, _, _, rfl⟩ := h
  rfl

theorem State.Completing.arriving {s : State} {w : Word} (h : s.Completing w) : s.arriving = none := by
  obtain ⟨hphase, hleft⟩ := h
  simp only [State.arriving, hphase, hleft]

/-- A step completes a command, or performs what arrives, if anything does, on the state it is taken from. -/
theorem step_next_cases {s t : State} (h : step s = .next t) :
    (∃ w, s.Completing w ∧ completeCommand w s = .next t) ∨
    (∃ u, u.TickOf s ∧ ((s.arriving = none ∧ t = u) ∨ ∃ x, s.arriving = some x ∧ performInput x u = .next t)) := by
  rcases step_cases s with ⟨hp, hi, e⟩ | ⟨x, rest, hp, hi, e⟩ | ⟨w, hw, e⟩ | ⟨w, left, hp, hc, hi, e⟩ |
    ⟨w, left, x, rest, hp, hc, hi, e⟩ <;> rw [e] at h
  · cases h
    exact .inr ⟨s, ⟨_, _, _, rfl⟩, .inl ⟨by simp [State.arriving, hp, hi], rfl⟩⟩
  · exact .inr ⟨_, ⟨_, _, _, rfl⟩, .inr ⟨x, by simp [State.arriving, hp, hi], h⟩⟩
  · exact .inl ⟨w, hw, h⟩
  · cases h
    exact .inr ⟨_, ⟨_, _, _, rfl⟩, .inl ⟨by simp [State.arriving, hp, hc, hi], rfl⟩⟩
  · exact .inr ⟨_, ⟨_, _, _, rfl⟩, .inr ⟨x, by simp [State.arriving, hp, hc, hi], h⟩⟩

/-! ## The operand registers -/

/-- Settles O49: an arrival at a busy block leaves the operands, and of the completing commands only ENCODE writes some. -/
theorem operandsStayWhileBusy : Obligations.OperandsStayWhileBusy := by
  intro s t _ hbusy hreset h hchanged
  rcases step_next_cases h with ⟨w, hw, hc⟩ | ⟨u, hu, ⟨_, rfl⟩ | ⟨x, hx, hp⟩⟩
  · rcases completeCommand_cases w s with ⟨c, x, e⟩ | ⟨rule, l, m, r, _, _, e⟩ | ⟨hd, _, e⟩ <;> cases e.symm.trans hc
    · exact absurd rfl hchanged
    · exact absurd rfl hchanged
    · exact ⟨w, hw, hd, rfl⟩
  · exact absurd hu.operands hchanged
  · have hbusy' : u.status.busy = true := hu.status ▸ hbusy
    obtain ⟨_, hkeep, _⟩ := performInput_busy hbusy' (fun e => hreset (hx.trans (congrArg some e))) hp
    exact absurd (hkeep.trans hu.operands) hchanged

/-! ## EVAL_OUT -/

theorem writeReg_evalOut (r : Reg) (v : Word) (s : State) : (writeReg r v s).evalOut = s.evalOut := by
  cases r <;> rfl

theorem writeReg_status (r : Reg) (v : Word) (s : State) : (writeReg r v s).status = s.status := by
  cases r <;> rfl

@[simp] theorem hostWrite_evalOut (off : Offset) (v : Word) (s : State) : (hostWrite off v s).evalOut = s.evalOut := by
  rcases hostWrite_cases off v s with ⟨_, _, e⟩ | ⟨_, _, e⟩ | ⟨_, _, e⟩ | ⟨_, _, e⟩ <;> rw [e]
  · rfl
  · rfl
  · exact writeReg_evalOut _ v s

@[simp] theorem pollWait_evalOut (s : State) : (pollWait s).evalOut = s.evalOut := by
  unfold pollWait
  split <;> rfl

@[simp] theorem pollWait_status (s : State) : (pollWait s).status = s.status := by
  unfold pollWait
  split <;> rfl

theorem performInput_evalOut {x : Input} {s t : State} (hx : x ≠ .reset) (h : performInput x s = .next t) :
    t.evalOut = s.evalOut := by
  rcases performInput_cases h with ⟨off, v, _, rfl⟩ | ⟨off, v, rfl⟩ | ⟨_, rfl⟩ | ⟨hr, _⟩ | ⟨_, rfl⟩
  · exact hostWrite_evalOut off v s
  · rfl
  · exact pollWait_evalOut s
  · exact absurd hr hx
  · rfl

/-- Settles O50: no arrival but a reset writes EVAL_OUT, and of the completing commands only a successful EVAL does. -/
theorem evalOutChangesOnlyByEval : Obligations.EvalOutChangesOnlyByEval := by
  intro s t h hchanged
  rcases step_next_cases h with ⟨w, hw, hc⟩ | ⟨u, hu, ⟨_, rfl⟩ | ⟨x, hx, hp⟩⟩
  · rcases completeCommand_cases w s with ⟨c, x, e⟩ | ⟨rule, l, m, r, hd, hrule, e⟩ | ⟨_, _, e⟩ <;>
      cases e.symm.trans hc
    · exact absurd rfl hchanged
    · exact .inr ⟨w, rule, l, m, r, hw, hd, hrule, rfl⟩
    · exact absurd rfl hchanged
  · exact absurd hu.evalOut hchanged
  · by_cases hreset : x = .reset
    · exact .inl (hx.trans (congrArg some hreset))
    · exact absurd ((performInput_evalOut hreset hp).trans hu.evalOut) hchanged

/-! ## STATUS -/

/-- This step drops a host write (R50). -/
def State.Dropping (s : State) : Prop :=
  s.status.busy = true ∧ ∃ off v, s.arriving = some (.write off v) ∧
    (regAt s.params off = .cmd ∨ (regAt s.params off).isRW = true)

/-- This step neither resets the block, accepts a command nor drops a write. -/
structure State.Plain (s : State) : Prop where
  noReset : ¬ s.Resetting
  noAccept : ∀ v, ¬ s.Accepting v
  noDrop : ¬ s.Dropping

theorem State.Resetting.not_accepting {s : State} (h : s.Resetting) (v : Word) : ¬ s.Accepting v := by
  rintro ⟨off, ha, _⟩
  cases h.symm.trans ha

theorem State.Resetting.not_dropping {s : State} (h : s.Resetting) : ¬ s.Dropping := by
  rintro ⟨_, off, v, ha, _⟩
  cases h.symm.trans ha

theorem State.Accepting.not_dropping {s : State} {v : Word} (h : s.Accepting v) : ¬ s.Dropping := by
  rintro ⟨hbusy, _⟩
  obtain ⟨_, _, _, hidle⟩ := h
  cases hbusy.symm.trans hidle

theorem State.Dropping.not_resetting_or_accepting {s : State} (h : s.Dropping) :
    ¬ (s.Resetting ∨ ∃ v, s.Accepting v) := by
  rintro (hreset | ⟨v, haccept⟩)
  · exact hreset.not_dropping h
  · exact haccept.not_dropping h

theorem State.Plain.not_resetting_or_accepting {s : State} (h : s.Plain) : ¬ (s.Resetting ∨ ∃ v, s.Accepting v) := by
  rintro (hreset | ⟨v, haccept⟩)
  · exact h.noReset hreset
  · exact h.noAccept v haccept

theorem State.Accepting.unique {s : State} {v w : Word} (hv : s.Accepting v) (hw : s.Accepting w) : v = w := by
  obtain ⟨_, ha, _⟩ := hv
  obtain ⟨_, ha', _⟩ := hw
  cases ha.symm.trans ha'
  rfl

theorem plain_of_write {s : State} {off : Offset} {v : Word} (ha : s.arriving = some (.write off v))
    (hcmd : regAt s.params off ≠ .cmd) (hstore : s.status.busy = true → (regAt s.params off).isRW = false) :
    s.Plain := by
  refine ⟨fun hreset => ?_, ?_, ?_⟩
  · cases ha.symm.trans hreset
  · rintro w ⟨off', ha', hcmd', _⟩
    cases ha.symm.trans ha'
    exact hcmd hcmd'
  · rintro ⟨hbusy, off', w, ha', hreg⟩
    cases ha.symm.trans ha'
    rcases hreg with h | h
    · exact hcmd h
    · cases h.symm.trans (hstore hbusy)

theorem plain_of_not_write {s : State} (hreset : s.arriving ≠ some .reset)
    (hwrite : ∀ off v, s.arriving ≠ some (.write off v)) : s.Plain :=
  ⟨hreset, fun v ⟨off, ha, _⟩ => hwrite off v ha, fun ⟨_, off, v, ha, _⟩ => hwrite off v ha⟩

/-- What a step does to STATUS, said once: it resets, accepts, drops a write, or does none of these and then changes STATUS by
a completion alone. -/
theorem step_status_cases {s t : State} (h : step s = .next t) :
    (s.Resetting ∧ t.status = Status.cleared) ∨
    (∃ v, s.Accepting v ∧ t.status = Status.accepted v) ∨
    (s.Dropping ∧ t.status = s.status.overrun) ∨
    (s.Plain ∧ (t.status = s.status ∨ ∃ w, s.Completing w ∧ completeCommand w s = .next t)) := by
  rcases step_next_cases h with ⟨w, hw, hc⟩ | ⟨u, hu, ⟨ha, rfl⟩ | ⟨x, hx, hp⟩⟩
  · exact .inr (.inr (.inr ⟨plain_of_not_write (by simp [hw.arriving]) (by simp [hw.arriving]), .inr ⟨w, hw, hc⟩⟩))
  · exact .inr (.inr (.inr ⟨plain_of_not_write (by simp [ha]) (by simp [ha]), .inl hu.status⟩))
  have hplain (hreset : x ≠ .reset) (hwrite : ∀ off v, x ≠ .write off v) : s.Plain :=
    plain_of_not_write (by simpa [hx] using hreset) (by simpa [hx] using hwrite)
  cases x with
  | write off v =>
    cases hp
    have hcases := hostWrite_cases off v u
    rw [hu.params, hu.status] at hcases
    rcases hcases with ⟨hcmd, hbusy, e⟩ | ⟨hreg, hbusy, e⟩ | ⟨hrw, hbusy, e⟩ | ⟨hcmd, hrw, e⟩ <;> rw [e]
    · exact .inr (.inl ⟨v, ⟨off, hx, hcmd, hbusy⟩, rfl⟩)
    · exact .inr (.inr (.inl ⟨⟨hbusy, off, v, hx, hreg⟩, congrArg Status.overrun hu.status⟩))
    · have hcmd : regAt s.params off ≠ .cmd := fun hcmd => by rw [hcmd] at hrw; cases hrw
      exact .inr (.inr (.inr ⟨plain_of_write hx hcmd (by simp [hbusy]), .inl ((writeReg_status _ v u).trans hu.status)⟩))
    · exact .inr (.inr (.inr ⟨plain_of_write hx hcmd fun _ => hrw, .inl hu.status⟩))
  | read off =>
    cases hp
    exact .inr (.inr (.inr ⟨hplain nofun nofun, .inl hu.status⟩))
  | narrowWrite off width v => cases hp
  | narrowRead off width =>
    cases hp
    exact .inr (.inr (.inr ⟨hplain nofun nofun, .inl hu.status⟩))
  | wait =>
    cases hp
    exact .inr (.inr (.inr ⟨hplain nofun nofun, .inl ((pollWait_status u).trans hu.status)⟩))
  | reset =>
    cases hp
    exact .inl ⟨hx, rfl⟩
  | quiet =>
    cases hp
    exact .inr (.inr (.inr ⟨hplain nofun nofun, .inl hu.status⟩))

theorem completeCommand_status {w : Word} {s t : State} (h : completeCommand w s = .next t) :
    t.status = s.status.succeeded ∨ ∃ c, t.status = s.status.failed c := by
  rcases completeCommand_cases w s with ⟨c, x, e⟩ | ⟨rule, l, m, r, _, _, e⟩ | ⟨_, _, e⟩ <;> cases e.symm.trans h
  · exact .inr ⟨c, rfl⟩
  · exact .inl rfl
  · exact .inl rfl

/-- A step that leaves STATUS alone or changes it by a completion keeps OVR and LASTOP (R22, R25). -/
theorem keeps_ovr_lastop {s t : State} (hstatus : t.status = s.status ∨ ∃ w, s.Completing w ∧ completeCommand w s = .next t) :
    t.status.ovr = s.status.ovr ∧ t.status.lastop = s.status.lastop := by
  rcases hstatus with h | ⟨w, _, h⟩
  · simp [h]
  · rcases completeCommand_status h with h | ⟨c, h⟩ <;> simp [h]

/-! ## OVR and LASTOP -/

/-- The state with another value of OVR. -/
def State.withOvr (s : State) (o : Bool) : State := { s with status := { s.status with ovr := o } }

theorem exec_withOvr {i : Instr} {s t : State} (o : Bool) (h : exec i s = .next t) :
    exec i (s.withOvr o) = .next (t.withOvr o) := by
  cases i with
  | eval rule l c r =>
    simp only [exec, execEval] at h ⊢
    split_ifs at h ⊢ <;> cases h <;> rfl
  | encode =>
    have hchecks : validate (s.withOvr o) = validate s := rfl
    simp only [exec, execEncode, hchecks] at h ⊢
    cases hv : validate s <;> simp only [hv] at h ⊢ <;> cases h <;> rfl

/-- A completion neither reads OVR nor writes it (R22). -/
theorem completeCommand_withOvr {w : Word} {s t : State} (o : Bool) (h : completeCommand w s = .next t) :
    completeCommand w (s.withOvr o) = .next (t.withOvr o) := by
  cases hd : decode w with
  | instr i =>
    rw [completeCommand_instr hd] at h ⊢
    exact exec_withOvr o h
  | illegal why =>
    rw [completeCommand_illegal hd] at h ⊢
    cases h
    rfl

/-- Settles O51: by what the step does to STATUS, and a completion neither reads nor writes OVR. -/
theorem overrunIsSticky : Obligations.OverrunIsSticky := by
  refine ⟨fun s t h => ?_, fun w s t o h => completeCommand_withOvr o h, fun p => rfl⟩
  change _ ∧ _ ∧ (_ → (_ ↔ s.Dropping))
  rcases step_status_cases h with ⟨hreset, e⟩ | ⟨v, haccept, e⟩ | ⟨hdrop, e⟩ | ⟨hplain, e⟩
  · have hovr : t.status.ovr = false := by rw [e]; rfl
    exact ⟨fun _ => hovr, fun hno _ _ => absurd hreset hno, fun _ => by simp [hovr, hreset.not_dropping]⟩
  · have hovr : t.status.ovr = false := by rw [e]; rfl
    exact ⟨fun _ => hovr, fun _ hno _ => absurd haccept (hno v), fun _ => by simp [hovr, haccept.not_dropping]⟩
  · have hovr : t.status.ovr = true := by rw [e]; rfl
    exact ⟨fun h => absurd h hdrop.not_resetting_or_accepting, fun _ _ _ => hovr, fun _ => iff_of_true hovr hdrop⟩
  · have hovr : t.status.ovr = s.status.ovr := (keeps_ovr_lastop e).1
    rw [hovr]
    exact ⟨fun h => absurd h hplain.not_resetting_or_accepting, fun _ _ h => h, fun h => by simp [h, hplain.noDrop]⟩

/-- Settles O52: by what the step does to STATUS. -/
theorem lastopNamesTheAcceptedWord : Obligations.LastopNamesTheAcceptedWord := by
  intro s t h
  rcases step_status_cases h with ⟨hreset, e⟩ | ⟨v, haccept, e⟩ | ⟨hdrop, e⟩ | ⟨hplain, e⟩
  · rw [e]
    exact ⟨fun v haccept => absurd haccept (hreset.not_accepting v), fun _ => rfl, fun h => absurd hreset h⟩
  · rw [e]
    refine ⟨fun v' haccept' => ?_, fun hreset => absurd haccept (hreset.not_accepting v), fun _ h => absurd haccept (h v)⟩
    rw [haccept'.unique haccept]
    rfl
  · rw [e]
    exact ⟨fun v haccept => absurd hdrop haccept.not_dropping, fun hreset => absurd hdrop hreset.not_dropping,
      fun _ _ => rfl⟩
  · exact ⟨fun v haccept => absurd haccept (hplain.noAccept v), fun hreset => absurd hreset hplain.noReset,
      fun _ _ => (keeps_ovr_lastop e).2⟩

end Sys2Proof.Machine
end

section
/-! PROOF. The registers by their offsets: what a read of each returns (O39, O40, O60), and what a store changes (O37). -/

namespace Sys2Proof.Machine

/-! ## The offset of a register -/

/-- The word offset a register stands at (R42); 0 for `absent`, which stands for many. -/
def Reg.homeOffset : Reg → Nat
  | .id => 0x00
  | .param => 0x04
  | .cmd => 0x08
  | .status => 0x0C
  | .aLen => 0x10
  | .bLen => 0x14
  | .nRules => 0x18
  | .rounds => 0x1C
  | .evalOut => 0x20
  | .errInfo => 0x24
  | .rule j => 0x400 + 4 * j
  | .aData k => 0x1000 + 4 * k
  | .bData k => 0x2000 + 4 * k
  | .absent => 0

theorem homeOffset_controlReg {w : Nat} (h : controlReg w ≠ .absent) : (controlReg w).homeOffset = w := by
  rcases controlReg_cases w with ⟨rfl, _⟩ | ⟨rfl, _⟩ | ⟨rfl, _⟩ | ⟨rfl, _⟩ | ⟨rfl, _⟩ | ⟨rfl, _⟩ | ⟨rfl, _⟩ | ⟨rfl, _⟩ |
    ⟨rfl, _⟩ | ⟨rfl, _⟩ | ⟨habsent, _⟩
  iterate 10 rfl
  exact absurd habsent h

/-- A register that an offset reaches is reached from its own word offset only (R42). -/
theorem homeOffset_regAt {p : Params} {off : Offset} (h : regAt p off ≠ .absent) :
    (regAt p off).homeOffset = wordOffset off := by
  rcases regAt_cases p off with ⟨_, e⟩ | ⟨j, _, hoff, _, e⟩ | ⟨k, _, hoff, _, e⟩ | ⟨k, _, hoff, _, e⟩ | ⟨_, e, _⟩ <;>
    rw [e] at h ⊢
  · exact homeOffset_controlReg h
  · exact hoff.symm
  · exact hoff.symm
  · exact hoff.symm
  · exact absurd rfl h

theorem regAt_ne {p : Params} {off : Offset} {r : Reg} (hr : r ≠ .absent) (h : wordOffset off ≠ r.homeOffset) :
    regAt p off ≠ r := by
  rintro rfl
  exact h (homeOffset_regAt hr).symm

/-- Two word offsets never reach one register. -/
theorem regAt_ne_regAt {p : Params} {off off' : Offset} (hr : regAt p off ≠ .absent)
    (h : wordOffset off' ≠ wordOffset off) : regAt p off' ≠ regAt p off :=
  regAt_ne hr (homeOffset_regAt hr ▸ h)

theorem regAt_eq_controlReg (p : Params) {off : Offset} {w : Nat} (h : wordOffset off = w) (hw : w < 0x400) :
    regAt p off = controlReg w := by
  rw [regAt_control p (h ▸ hw), h]

/-! ## What a read returns -/

theorem readWord_idle {s : State} (h : s.status.busy = false) (off : Offset) : readWord off s = s.peek off := by
  simp [readWord, readsFree, h]

theorem readWord_not_data {s : State} {off : Offset} (h : (regAt s.params off).isData = false) :
    readWord off s = s.regValue (regAt s.params off) := by
  simp [readWord, readsFree, h, State.peek]

theorem controlReg_not_data (w : Nat) : (controlReg w).isData = false := by
  unfold controlReg
  split <;> rfl

/-- A control register reads its value, busy or idle (R47, R51). -/
theorem readWord_control (s : State) {off : Offset} {w : Nat} (h : wordOffset off = w) (hw : w < 0x400) :
    readWord off s = s.regValue (controlReg w) := by
  have hreg := regAt_eq_controlReg s.params h hw
  rw [readWord_not_data (hreg ▸ controlReg_not_data w), hreg]

/-- A write to a control register that is neither CMD nor RW changes nothing (R46). -/
theorem hostWrite_control_ignored (s : State) {off : Offset} {w : Nat} (v : Word) (h : wordOffset off = w) (hw : w < 0x400)
    (hcmd : controlReg w ≠ .cmd) (hrw : (controlReg w).isRW = false) : hostWrite off v s = s := by
  have hreg := regAt_eq_controlReg s.params h hw
  exact hostWrite_ignored v (hreg ▸ hcmd) (hreg ▸ hrw)

theorem paramValue_halves {p : Params} (h : p.legal = true) :
    (paramValue p).toNat % 2 ^ 16 = 32 * p.nw ∧ (paramValue p).toNat / 2 ^ 16 = p.rmax := by
  obtain ⟨_, _, _, _⟩ := legal_bounds h
  have hword : (paramValue p).toNat = p.rmax * 2 ^ 16 + 32 * p.nw := by
    rw [paramValue, Params.nmax, BitVec.toNat_append, BitVec.toNat_ofNat, BitVec.toNat_ofNat,
      Nat.mod_eq_of_lt (by omega), Nat.mod_eq_of_lt (by omega), ← Nat.shiftLeft_add_eq_or_of_lt (by omega),
      Nat.shiftLeft_eq]
  omega

/-- Settles O39: both offsets reach read-only control registers, whose values are constants of the block. -/
theorem identificationRegistersAreConstant : Obligations.IdentificationRegistersAreConstant := by
  intro s off v hlegal
  refine ⟨fun h => ⟨readWord_control s h (by decide), hostWrite_control_ignored s v h (by decide) nofun rfl⟩, fun h => ?_⟩
  rw [readWord_control s h (by decide)]
  obtain ⟨hnmax, hrmax⟩ := paramValue_halves hlegal
  exact ⟨hnmax, hrmax, hostWrite_control_ignored s v h (by decide) nofun rfl⟩

/-- Settles O60: the three offsets reach control registers, which read their fields busy or idle. -/
theorem readOnlyResultsReadAsTheirFields : Obligations.ReadOnlyResultsReadAsTheirFields := by
  intro s off v
  refine ⟨fun h => readWord_control s h (by decide), fun h => ?_, fun h =>
    ⟨readWord_control s h (by decide), hostWrite_control_ignored s v h (by decide) nofun rfl⟩⟩
  have hvalue : readWord off s = (BitVec.ofBool s.evalOut).setWidth 32 := readWord_control s h (by decide)
  have hwrite := hostWrite_control_ignored s v h (by decide) nofun rfl
  rw [hvalue]
  cases s.evalOut <;> exact ⟨by decide, by decide, hwrite⟩

/-! ## The STATUS word -/

@[simp] theorem bitWord_getElem (b : Bool) (i : Nat) (h : i < 32) : (bitWord b)[i] = (decide (i = 0) && b) := by
  cases i <;> simp [bitWord]

theorem word_flags (st : Status) :
    st.word.getLsbD 0 = st.busy ∧ st.word.getLsbD 1 = st.done ∧ st.word.getLsbD 2 = st.err ∧ st.word.getLsbD 3 = st.ovr := by
  simp [Status.word]

theorem word_eclass (st : Status) : st.word.extractLsb' 4 2 = st.eclass := by
  apply BitVec.eq_of_getLsbD_eq
  intro i hi
  interval_cases i <;> simp [Status.word]

theorem word_ecause (st : Status) : st.word.extractLsb' 8 4 = st.ecause := by
  apply BitVec.eq_of_getLsbD_eq
  intro i hi
  interval_cases i <;> simp [Status.word]

theorem word_lastop (st : Status) : st.word.extractLsb' 12 4 = st.lastop := by
  apply BitVec.eq_of_getLsbD_eq
  intro i hi
  interval_cases i <;> simp [Status.word]

theorem word_reserved_low (st : Status) : st.word.extractLsb' 6 2 = 0#2 := by
  apply BitVec.eq_of_getLsbD_eq
  intro i hi
  interval_cases i <;> simp [Status.word]

theorem word_reserved_high (st : Status) : st.word.extractLsb' 16 16 = 0#16 := by
  apply BitVec.eq_of_getLsbD_eq
  intro i hi
  interval_cases i <;> simp [Status.word]

/-- Settles O40: the offset reaches STATUS, whose word is read field by field. -/
theorem statusReadsAsItsFields : Obligations.StatusReadsAsItsFields := by
  refine ⟨fun s off v h => ?_, fun p off h =>
    (readWord_control (State.resetOf p) h (by decide)).trans (by decide : Status.cleared.word = 0)⟩
  have hvalue : readWord off s = s.status.word := readWord_control s h (by decide)
  obtain ⟨hbusy, hdone, herr, hovr⟩ := word_flags s.status
  rw [hvalue]
  exact ⟨hbusy, hdone, herr, hovr, word_eclass _, word_reserved_low _, word_ecause _, word_lastop _,
    word_reserved_high _, hostWrite_control_ignored s v h (by decide) nofun rfl, rfl⟩

/-! ## A store to one register -/

theorem getD_set_ne {α : Type} (l : List α) {i j : Nat} (h : j ≠ i) (x d : α) : (l.set i x).getD j d = l.getD j d := by
  simp [List.getD_eq_getElem?_getD, List.getElem?_set_ne h.symm]

theorem getD_set_self {α : Type} (l : List α) {i : Nat} (h : i < l.length) (x d : α) : (l.set i x).getD i d = x := by
  simp [List.getD_eq_getElem?_getD, h]

/-- A store to one register changes the value of no other. -/
theorem writeReg_regValue_ne {r r' : Reg} (h : r' ≠ r) (v : Word) (s : State) :
    (writeReg r v s).regValue r' = s.regValue r' := by
  cases r' with
  | aLen =>
    cases r with
    | aLen => exact absurd rfl h
    | _ => rfl
  | bLen =>
    cases r with
    | bLen => exact absurd rfl h
    | _ => rfl
  | nRules =>
    cases r with
    | nRules => exact absurd rfl h
    | _ => rfl
  | rounds =>
    cases r with
    | rounds => exact absurd rfl h
    | _ => rfl
  | rule j' =>
    cases r with
    | rule j => exact congrArg (BitVec.setWidth 32) (getD_set_ne _ (fun e => h (congrArg _ e)) _ _)
    | _ => rfl
  | aData k' =>
    cases r with
    | aData k => exact getD_set_ne _ (fun e => h (congrArg _ e)) _ _
    | _ => rfl
  | bData k' =>
    cases r with
    | bData k => exact getD_set_ne _ (fun e => h (congrArg _ e)) _ _
    | _ => rfl
  | _ => cases r <;> rfl

theorem hostWrite_store {off : Offset} {s : State} {r : Reg} (v : Word) (hbusy : s.status.busy = false)
    (hreg : regAt s.params off = r) (hrw : r.isRW = true) : hostWrite off v s = writeReg r v s := by
  subst hreg
  exact hostWrite_idle v hbusy hrw

/-- A read after a store to an idle block. -/
theorem readWord_writeReg {s : State} (hbusy : s.status.busy = false) (r : Reg) (v : Word) (off : Offset) :
    readWord off (writeReg r v s) = (writeReg r v s).regValue (regAt s.params off) := by
  obtain ⟨hparams, hstatus, _⟩ := writeReg_frame r v s
  rw [readWord_idle (by rw [hstatus, hbusy]), State.peek, hparams]

/-- A store is read back as the register's value. -/
theorem readWord_hostWrite {off : Offset} {s : State} {r : Reg} (v : Word) (hbusy : s.status.busy = false)
    (hreg : regAt s.params off = r) (hrw : r.isRW = true) :
    readWord off (hostWrite off v s) = (writeReg r v s).regValue r := by
  rw [hostWrite_store v hbusy hreg hrw, readWord_writeReg hbusy, hreg]

theorem setWidth_half_setWidth (v : Word) : (v.setWidth 16).setWidth 32 = v &&& 0x0000FFFF := by
  apply BitVec.eq_of_getLsbD_eq
  intro i hi
  interval_cases i <;> simp

/-- The index of the word of a file that a word offset in the file's range reaches. -/
theorem exists_index {off : Offset} {base count : Nat} (hbase : base % 4 = 0) (hlow : base ≤ wordOffset off)
    (hhigh : wordOffset off < base + 4 * count) : ∃ k, k < count ∧ wordOffset off = base + 4 * k := by
  have hmod := wordOffset_mod off
  exact ⟨(wordOffset off - base) / 4, by omega, by omega⟩

/-- A write to an offset other than CMD's disturbs the reading of no other offset of an idle block. -/
theorem readWord_hostWrite_ne {off off' : Offset} {s : State} (v : Word) (hbusy : s.status.busy = false)
    (hcmd : wordOffset off ≠ 0x008) (hne : wordOffset off' ≠ wordOffset off) :
    readWord off' (hostWrite off v s) = readWord off' s := by
  rcases hostWrite_cases off v s with ⟨h, _⟩ | ⟨_, h, _⟩ | ⟨hrw, _, e⟩ | ⟨_, _, e⟩
  · exact absurd h (regAt_ne nofun hcmd)
  · simp [hbusy] at h
  · have habsent : regAt s.params off ≠ .absent := fun h => by rw [h] at hrw; cases hrw
    rw [e, readWord_writeReg hbusy, writeReg_regValue_ne (regAt_ne_regAt habsent hne), readWord_idle hbusy, State.peek]
  · rw [e]

/-- Settles O37: each offset reaches its register, where the store is the field's update. -/
theorem idleWriteIsReadBack : Obligations.IdleWriteIsReadBack := by
  intro s off off' v hfiles hbusy
  have hlegal := hfiles.params
  have control {w : Nat} (h : wordOffset off = w) (hw : w < 0x400) := regAt_eq_controlReg s.params h hw
  have hslot {j : Nat} (hj : j < s.params.rmax) : j < s.ruleSlots.length := hfiles.slots ▸ hj
  have ha {k : Nat} (hk : k < s.params.nw) : k < s.aData.length := hfiles.aData ▸ hk
  have hb {k : Nat} (hk : k < s.params.nw) : k < s.bData.length := hfiles.bData ▸ hk
  refine ⟨fun h => hostWrite_store v hbusy (control h (by decide)) rfl,
    fun h => hostWrite_store v hbusy (control h (by decide)) rfl,
    fun h => hostWrite_store v hbusy (control h (by decide)) rfl,
    fun h => hostWrite_store v hbusy (control h (by decide)) rfl,
    fun j hj h => ?_, fun k hk h => ?_, fun k hk h => ?_, ?_, ?_, readWord_hostWrite_ne v hbusy⟩
  · have hstore := hostWrite_store v hbusy (regAt_rule hlegal hj h) rfl
    rw [hstore]
    exact ⟨rfl, getD_set_self _ (hslot hj) _ _, fun j' hj' => getD_set_ne _ hj' _ _⟩
  · have hstore := hostWrite_store v hbusy (regAt_aData hlegal hk h) rfl
    rw [hstore]
    exact ⟨rfl, List.getElem?_set_self (ha hk)⟩
  · have hstore := hostWrite_store v hbusy (regAt_bData hlegal hk h) rfl
    rw [hstore]
    exact ⟨rfl, List.getElem?_set_self (hb hk)⟩
  · rw [← setWidth_half_setWidth]
    rintro (h | h | h | ⟨hlow, hhigh⟩)
    · exact readWord_hostWrite v hbusy (control h (by decide)) rfl
    · exact readWord_hostWrite v hbusy (control h (by decide)) rfl
    · exact readWord_hostWrite v hbusy (control h (by decide)) rfl
    · obtain ⟨j, hj, h⟩ := exists_index (by decide) hlow hhigh
      rw [readWord_hostWrite v hbusy (regAt_rule hlegal hj h) rfl]
      exact congrArg (BitVec.setWidth 32) (getD_set_self _ (hslot hj) _ _)
  · rintro (h | ⟨hlow, hhigh⟩ | ⟨hlow, hhigh⟩)
    · exact readWord_hostWrite v hbusy (control h (by decide)) rfl
    · obtain ⟨k, hk, h⟩ := exists_index (by decide) hlow hhigh
      rw [readWord_hostWrite v hbusy (regAt_aData hlegal hk h) rfl]
      exact getD_set_self _ (ha hk) _ _
    · obtain ⟨k, hk, h⟩ := exists_index (by decide) hlow hhigh
      rw [readWord_hostWrite v hbusy (regAt_bData hlegal hk h) rfl]
      exact getD_set_self _ (hb hk) _ _

end Sys2Proof.Machine
end

section
/-! PROOF. What the commands leave: the frames of EVAL (O11) and ENCODE (O33), and ENCODE's result (O22); then the place of a
sequence's positions in the data words (O19). -/

namespace Sys2Proof.Machine

/-! ## The registers a completion leaves alone -/

theorem failCommand_regValue {r : Reg} (hstatus : r ≠ .status) (hinfo : r ≠ .errInfo) (c : Cause) (x : Word) (s : State) :
    (failCommand c x s).regValue r = s.regValue r := by
  cases r with
  | status => exact absurd rfl hstatus
  | errInfo => exact absurd rfl hinfo
  | _ => rfl

theorem evalDone_regValue {r : Reg} (hstatus : r ≠ .status) (hout : r ≠ .evalOut) (out : Bool) (s : State) :
    (evalDone out s).regValue r = s.regValue r := by
  cases r with
  | status => exact absurd rfl hstatus
  | evalOut => exact absurd rfl hout
  | _ => rfl

theorem encodeDone_regValue {r : Reg} (hstatus : r ≠ .status) (hdata : r.isData = false) (p : BitSeq × BitSeq) (s : State) :
    (encodeDone p s).regValue r = s.regValue r := by
  cases r with
  | status => exact absurd rfl hstatus
  | aData k => cases hdata
  | bData k => cases hdata
  | _ => rfl

theorem failCommand_peek {off : Offset} (hstatus : wordOffset off ≠ 0x00C) (hinfo : wordOffset off ≠ 0x024) (c : Cause)
    (x : Word) (s : State) : (failCommand c x s).peek off = s.peek off :=
  failCommand_regValue (regAt_ne nofun hstatus) (regAt_ne nofun hinfo) c x s

/-- The data registers stand at 0x1000 to 0x2FFF (R33, R34). -/
theorem regAt_not_data (p : Params) {off : Offset} (h : ¬ (0x1000 ≤ wordOffset off ∧ wordOffset off < 0x3000)) :
    (regAt p off).isData = false := by
  rcases regAt_cases p off with ⟨_, e⟩ | ⟨j, _, _, _, e⟩ | ⟨k, _, hoff, _, _⟩ | ⟨k, _, hoff, _, _⟩ | ⟨_, e, _⟩
  · rw [e]
    exact controlReg_not_data _
  · rw [e]
    rfl
  · omega
  · omega
  · rw [e]
    rfl

/-! ## EVAL -/

theorem exec_eval_legal {rule : HalfWord} (h : rule.toNat ≤ 255) (l c r : Bool) (s : State) :
    exec (.eval rule l c r) s = .next (evalDone (evaluateRule (rule.setWidth 8) l c r) s) :=
  if_neg (Nat.not_lt.mpr h)

theorem exec_eval_illegal {rule : HalfWord} (h : 255 < rule.toNat) (l c r : Bool) (s : State) :
    exec (.eval rule l c r) s = .next (failCommand .ruleRange (0xFFFF#16 ++ rule) s) :=
  if_pos h

/-- Settles O11: a legal rule ends EVAL by `evalDone`, another by `failCommand`; each keeps the other registers. -/
theorem evalFrame : Obligations.EvalFrame := by
  intro s t rule l c r h
  by_cases hrule : rule.toNat ≤ 255
  · cases (exec_eval_legal hrule l c r s).symm.trans h
    exact ⟨fun off hstatus hout _ => evalDone_regValue (regAt_ne nofun hstatus) (regAt_ne nofun hout) _ s, fun _ => rfl,
      fun hlt => absurd hrule (Nat.not_le.mpr hlt), rfl, rfl, rfl, rfl, rfl, rfl, rfl, rfl, rfl⟩
  · cases (exec_eval_illegal (Nat.not_le.mp hrule) l c r s).symm.trans h
    exact ⟨fun off hstatus _ hinfo => failCommand_peek hstatus hinfo _ _ s, fun hle => absurd hle hrule, fun _ => rfl,
      rfl, rfl, rfl, rfl, rfl, rfl, rfl, rfl, rfl⟩

/-! ## ENCODE -/

theorem exec_encode_ready {s : State} (h : s.EncodeReady) : exec .encode s = .next (encodeDone (encodeResult s) s) := by
  simp only [exec, execEncode, (validate_eq_none_iff s).mpr h]

theorem exec_encode_not_ready {s : State} (h : ¬ s.EncodeReady) : ∃ c x, exec .encode s = .next (failCommand c x s) := by
  rcases exec_cases .encode s with hfail | ⟨_, _, _, _, hi, _⟩ | ⟨_, hready, _⟩
  · exact hfail
  · cases hi
  · exact absurd hready h

/-- Settles O33: operands that pass the checks end ENCODE by `encodeDone`, others by `failCommand`. -/
theorem encodeFrame : Obligations.EncodeFrame := by
  intro s t h
  by_cases hready : s.EncodeReady
  · cases (exec_encode_ready hready).symm.trans h
    exact ⟨fun off hstatus _ hdata => encodeDone_regValue (regAt_ne nofun hstatus) (regAt_not_data _ hdata) _ s,
      fun _ => ⟨rfl, rfl, rfl, rfl⟩, fun hnot => absurd hready hnot, rfl, rfl, rfl, rfl, rfl, rfl, rfl, rfl⟩
  · obtain ⟨c, x, e⟩ := exec_encode_not_ready hready
    cases e.symm.trans h
    exact ⟨fun off hstatus hinfo _ => failCommand_peek hstatus hinfo c x s, fun h => absurd h hready,
      fun _ => ⟨rfl, rfl, rfl⟩, rfl, rfl, rfl, rfl, rfl, rfl, rfl, rfl⟩

/-- A data file's words as quotients of its integer (R91). -/
theorem natToWords_eq_div (nw v : Nat) :
    natToWords nw v = (List.range nw).map fun k => BitVec.ofNat 32 (v / 2 ^ (32 * k)) := by
  simp only [natToWords, ← Nat.shiftRight_eq_div_pow]
  rfl

/-- Settles O22: the words written back are the quotients of the result, and the RuleSet is the slots' low bytes. -/
theorem encodeWritesTheTransform : Obligations.EncodeWritesTheTransform := by
  refine ⟨fun s h => ?_, fun s => ⟨by simp [State.ruleSet], fun j hj => by simp [State.ruleSet, hj]⟩⟩
  rw [exec_encode_ready h, ← natToWords_eq_div, ← natToWords_eq_div]
  rfl

/-! ## The data words of a sequence -/

/-- Position `i` of the sequence of a data file's integer is a bit of one of its words (R101). -/
theorem intToSeq_wordsToNat_getElem? (ws : List Word) {n i : Nat} (hn : n ≤ 32 * ws.length) (hi : i < n) :
    ∃ w, ws[(n - 1 - i) / 32]? = some w ∧ (intToSeq (wordsToNat ws) n)[i]? = some (w.getLsbD ((n - 1 - i) % 32)) := by
  have hlt : (n - 1 - i) / 32 < ws.length := by omega
  refine ⟨ws[(n - 1 - i) / 32], List.getElem?_eq_getElem hlt, ?_⟩
  rw [intToSeq_getElem? _ _ _ hi, wordsToNat_testBit, List.getD_eq_getElem _ _ hlt]

/-- Settles O19: the same lemma for A_DATA and B_DATA. -/
theorem sequencePositionsLieInTheDataWords : Obligations.SequencePositionsLieInTheDataWords := by
  intro s n i hfiles hn hi
  rw [Params.nmax] at hn
  exact ⟨intToSeq_wordsToNat_getElem? s.aData (hfiles.aData ▸ hn) hi,
    intToSeq_wordsToNat_getElem? s.bData (hfiles.bData ▸ hn) hi⟩

end Sys2Proof.Machine
end

section
/-! PROOF. LOADA (R71, O59): the writes of its expansion, each in one step of an idle block, fill A_DATA word by word. -/

namespace Sys2Proof.Machine

theorem wordBits_ofNat (v k : Nat) : BitVec.ofNat 32 (wordBits v k) = wordOfNat v k := by
  apply BitVec.eq_of_toNat_eq
  simp [wordBits, wordOfNat]

theorem wordOffset_ofNat {n : Nat} (hn : n < 2 ^ 14) (hmod : n % 4 = 0) : wordOffset (BitVec.ofNat 14 n) = n := by
  rw [wordOffset_eq, BitVec.toNat_ofNat, Nat.mod_eq_of_lt hn]
  omega

theorem wordOffset_offAData {p : Params} (hp : p.legal = true) {k : Nat} (hk : k < p.nw) :
    wordOffset (BitVec.ofNat 14 (offAData k)) = 0x1000 + 4 * k := by
  obtain ⟨_, _, _, _⟩ := legal_bounds hp
  exact wordOffset_ofNat (by unfold offAData; omega) (by unfold offAData; omega)

/-- The writes of LOADA's expansion to `m` data words from word `k` on. -/
def dataWrites (v k m : Nat) : List Input :=
  (List.range' k m).map fun i => .write (BitVec.ofNat 14 (offAData i)) (BitVec.ofNat 32 (wordBits v i))

theorem dataWrites_succ (v k m : Nat) :
    dataWrites v k (m + 1) =
      .write (BitVec.ofNat 14 (offAData k)) (BitVec.ofNat 32 (wordBits v k)) :: dataWrites v (k + 1) m := by
  simp [dataWrites, List.range'_succ]

theorem loadA_inputs (p : Params) (v n : Nat) :
    scriptInputs ((Pseudo.loadA v n).expand p) =
      .write (BitVec.ofNat 14 offALen) (BitVec.ofNat 32 n) :: dataWrites v 0 p.nw := by
  simp [scriptInputs, Pseudo.expand, HostStmt.input, dataWrites, List.range_eq_range']

/-- A store that arrives at an idle block is the whole step. -/
theorem step_idle_store {s : State} {off : Offset} {v : Word} {r : Reg} {rest : List Input} (hphase : s.phase = .idle)
    (hbusy : s.status.busy = false) (hreg : regAt s.params off = r) (hrw : r.isRW = true)
    (hinputs : s.inputs = .write off v :: rest) : step s = .next (writeReg r v { s with inputs := rest }) := by
  rw [step_idle hphase, arrive, hinputs, ← hostWrite_store (s := { s with inputs := rest }) v hbusy hreg hrw]
  rfl

theorem step_dataWrite {s : State} {v k m : Nat} (hfiles : s.FilesFit) (hphase : s.phase = .idle)
    (hbusy : s.status.busy = false) (hk : k < s.params.nw) (hinputs : s.inputs = dataWrites v k (m + 1)) :
    step s = .next { s with inputs := dataWrites v (k + 1) m, aData := s.aData.set k (wordOfNat v k) } := by
  have hreg := regAt_aData hfiles.params hk (wordOffset_offAData hfiles.params hk)
  rw [step_idle_store hphase hbusy hreg rfl (hinputs.trans (dataWrites_succ v k m)), wordBits_ofNat]
  rfl

theorem eq_with_inputs_aData {s : State} {inputs : List Input} {ws : List Word} (hinputs : s.inputs = inputs)
    (hdata : s.aData = ws) : s = { s with inputs := inputs, aData := ws } := by
  subst hinputs hdata
  rfl

theorem natToWords_succ (k v : Nat) : natToWords (k + 1) v = natToWords k v ++ [wordOfNat v k] := by
  simp [natToWords, List.range_succ]

/-- A file whose first `k` words are those of `v`, with word `k` of `v` stored. -/
theorem take_set_natToWords {ws : List Word} {v k : Nat} (hk : k < ws.length) (h : ws.take k = natToWords k v) :
    (ws.set k (wordOfNat v k)).take (k + 1) = natToWords (k + 1) v := by
  rw [List.take_add_one, List.take_set_of_le (Nat.le_refl k), List.getElem?_set_self hk, h, natToWords_succ]
  rfl

/-- The data writes from word `k` on complete a file whose first `k` words are those of `v`. -/
theorem runSteps_dataWrites (v m : Nat) : ∀ {k : Nat} {s : State}, s.FilesFit → s.phase = .idle → s.status.busy = false →
    k + m = s.params.nw → s.aData.take k = natToWords k v → s.inputs = dataWrites v k m →
    runSteps m s = .next { s with inputs := [], aData := natToWords s.params.nw v } := by
  induction m with
  | zero =>
    intro k s hfiles _ _ hk hfilled hinputs
    have hdata : s.aData = natToWords s.params.nw v := by
      rw [← hk, Nat.add_zero, ← hfilled, List.take_of_length_le]
      rw [hfiles.aData]
      omega
    exact congrArg Host.Outcome.next (eq_with_inputs_aData hinputs hdata)
  | succ m ih =>
    intro k s hfiles hphase hbusy hk hfilled hinputs
    have hlt : k < s.params.nw := by omega
    rw [runSteps_next m (step_dataWrite hfiles hphase hbusy hlt hinputs)]
    refine ih (k := k + 1) ?_ hphase hbusy (by simp only; omega) (take_set_natToWords (hfiles.aData ▸ hlt) hfilled) rfl
    exact ⟨hfiles.params, hfiles.slots, by simpa using hfiles.aData, hfiles.bData⟩

/-- The block after LOADA's first write, the data writes still to arrive. -/
def State.lengthLoaded (s : State) (v n : Nat) : State :=
  { s with aLen := (BitVec.ofNat 32 n).setWidth 16, inputs := dataWrites v 0 s.params.nw }

/-- The block after LOADA. -/
def State.loadedA (s : State) (v n : Nat) : State :=
  { s with aLen := (BitVec.ofNat 32 n).setWidth 16, aData := natToWords s.params.nw v }

theorem step_loadLength {s : State} (v n : Nat) (hphase : s.phase = .idle) (hbusy : s.status.busy = false)
    (hinputs : s.inputs = []) :
    step (s.afterScript ((Pseudo.loadA v n).expand s.params)) = .next (s.lengthLoaded v n) := by
  have hreg : regAt s.params (BitVec.ofNat 14 offALen) = .aLen :=
    regAt_eq_controlReg s.params (w := 0x10) (by decide) (by decide)
  have harrives : (s.afterScript ((Pseudo.loadA v n).expand s.params)).inputs =
      .write (BitVec.ofNat 14 offALen) (BitVec.ofNat 32 n) :: dataWrites v 0 s.params.nw := by
    rw [State.afterScript, hinputs, List.nil_append, loadA_inputs]
  exact step_idle_store (s := s.afterScript _) hphase hbusy hreg rfl harrives

/-- LOADA's steps: the length's write, then the data writes from word 0 on. -/
theorem runSteps_loadA {s : State} (v n : Nat) (hfiles : s.FilesFit) (hphase : s.phase = .idle)
    (hbusy : s.status.busy = false) (hinputs : s.inputs = []) :
    runSteps (s.params.nw + 1) (s.afterScript ((Pseudo.loadA v n).expand s.params)) = .next (s.loadedA v n) := by
  have hfiles' : (s.lengthLoaded v n).FilesFit := ⟨hfiles.params, hfiles.slots, hfiles.aData, hfiles.bData⟩
  rw [runSteps_next _ (step_loadLength v n hphase hbusy hinputs),
    runSteps_dataWrites v s.params.nw hfiles' hphase hbusy (Nat.zero_add _) rfl rfl]
  exact congrArg Host.Outcome.next (eq_with_inputs_aData (s := s.loadedA v n) hinputs rfl).symm

/-- Settles O59: LOADA's steps lead to `loadedA`, and since `v` is below 2^NMAX the data words hold all of it. -/
theorem loadASetsTheInteger : Obligations.LoadASetsTheInteger := by
  intro s v n hfiles hphase hbusy hinputs hv hn
  refine ⟨s.loadedA v n, runSteps_loadA v n hfiles hphase hbusy hinputs, ?_, ?_, rfl⟩
  · rw [State.aInt, State.loadedA, wordsToNat_natToWords]
    exact Nat.mod_eq_of_lt hv
  · rw [State.loadedA, BitVec.toNat_setWidth, BitVec.toNat_ofNat]
    omega

end Sys2Proof.Machine
end

section
/-! PROOF. The window's accesses, mostly of spec/20_memory.md: which offsets the window reaches (O44) and what stands at them,
reads (O42, O43), writes a busy block drops (O36), absent words (O38), access widths (O41), and a step as its arrival (O54). -/

namespace Sys2Proof.Machine

/-! ## What stands at an offset -/

/-- Settles O44: an address of the window is BASE plus the offset it maps to, and no offset reaches beyond the window. -/
theorem windowReachesItsOffsets : Obligations.WindowReachesItsOffsets := by
  intro p addr off
  have hoff : off.toNat < 0x4000 := off.isLt
  rw [windowOffset]
  split
  next hin =>
    have hmod : (addr - p.base) % 2 ^ 14 = addr - p.base := Nat.mod_eq_of_lt (by omega)
    rw [Option.some_inj, ← BitVec.toNat_inj, BitVec.toNat_ofNat, hmod]
    omega
  next hout =>
    refine ⟨nofun, fun h => ?_⟩
    omega

/-- The offsets of the data words a block has (R33, R34). -/
def DataAt (p : Params) (off : Offset) : Prop :=
  (0x1000 ≤ wordOffset off ∧ wordOffset off < 0x1000 + 4 * p.nw) ∨
  (0x2000 ≤ wordOffset off ∧ wordOffset off < 0x2000 + 4 * p.nw)

/-- The offsets of CMD and of the RW registers a block has (R46). -/
def WritableAt (p : Params) (off : Offset) : Prop :=
  wordOffset off = 0x008 ∨ wordOffset off = 0x010 ∨ wordOffset off = 0x014 ∨ wordOffset off = 0x018 ∨
  wordOffset off = 0x01C ∨ (0x400 ≤ wordOffset off ∧ wordOffset off < 0x400 + 4 * p.rmax) ∨ DataAt p off

/-- The offsets at which a block has no register (R43). -/
def AbsentAt (p : Params) (off : Offset) : Prop :=
  (0x028 ≤ wordOffset off ∧ wordOffset off < 0x400) ∨
  (0x400 + 4 * p.rmax ≤ wordOffset off ∧ wordOffset off < 0x1000) ∨
  (0x1000 + 4 * p.nw ≤ wordOffset off ∧ wordOffset off < 0x2000) ∨
  (0x2000 + 4 * p.nw ≤ wordOffset off)

theorem regAt_isData_iff {p : Params} (hp : p.legal = true) (off : Offset) :
    (regAt p off).isData = true ↔ DataAt p off := by
  obtain ⟨_, _, _, _⟩ := legal_bounds hp
  unfold DataAt
  rcases regAt_cases p off with ⟨_, e⟩ | ⟨_, _, _, _, e⟩ | ⟨_, _, _, _, e⟩ | ⟨_, _, _, _, e⟩ | ⟨_, e, _⟩ <;> rw [e]
  · simp only [controlReg_not_data, Bool.false_eq_true, false_iff]
    omega
  · simp only [Reg.isData, Bool.false_eq_true, false_iff]
    omega
  · simp only [Reg.isData, true_iff]
    omega
  · simp only [Reg.isData, true_iff]
    omega
  · simp only [Reg.isData, Bool.false_eq_true, false_iff]
    omega

theorem controlReg_writable_iff (w : Nat) :
    controlReg w = .cmd ∨ (controlReg w).isRW = true ↔ w = 0x008 ∨ w = 0x010 ∨ w = 0x014 ∨ w = 0x018 ∨ w = 0x01C := by
  unfold controlReg
  split <;> simp_all [Reg.isRW]

theorem regAt_writable_iff {p : Params} (hp : p.legal = true) (off : Offset) :
    regAt p off = .cmd ∨ (regAt p off).isRW = true ↔ WritableAt p off := by
  obtain ⟨_, _, _, _⟩ := legal_bounds hp
  unfold WritableAt DataAt
  rcases regAt_cases p off with ⟨_, e⟩ | ⟨_, _, _, _, e⟩ | ⟨_, _, _, _, e⟩ | ⟨_, _, _, _, e⟩ | ⟨_, e, _⟩ <;> rw [e]
  · rw [controlReg_writable_iff]
    omega
  · simp only [Reg.isRW, or_true, true_iff]
    omega
  · simp only [Reg.isRW, or_true, true_iff]
    omega
  · simp only [Reg.isRW, or_true, true_iff]
    omega
  · simp only [Reg.isRW, reduceCtorEq, Bool.false_eq_true, or_self, false_iff]
    omega

theorem controlReg_absent {w : Nat} (h : 0x028 ≤ w) : controlReg w = .absent := by
  unfold controlReg
  split <;> simp_all

theorem regAt_absent {p : Params} (hp : p.legal = true) {off : Offset} (h : AbsentAt p off) : regAt p off = .absent := by
  obtain ⟨_, _, _, _⟩ := legal_bounds hp
  unfold AbsentAt at h
  rcases regAt_cases p off with ⟨_, e⟩ | ⟨_, _, _, _, _⟩ | ⟨_, _, _, _, _⟩ | ⟨_, _, _, _, _⟩ | ⟨_, e, _⟩
  · exact e.trans (controlReg_absent (by omega))
  · omega
  · omega
  · omega
  · exact e

theorem wordOffset_congr {off off' : Offset} (h : off.toNat / 4 = off'.toNat / 4) : wordOffset off = wordOffset off' := by
  rw [wordOffset_eq, wordOffset_eq, h]

theorem regAt_congr (p : Params) {off off' : Offset} (h : wordOffset off = wordOffset off') : regAt p off = regAt p off' := by
  simp only [regAt, h]

/-! ## Reads -/

theorem readWord_free {s : State} {off : Offset} (h : readsFree off s = true) : readWord off s = Config.busyRead s.draws :=
  if_pos h

theorem readWord_defined {s : State} {off : Offset} (h : readsFree off s = false) : readWord off s = s.peek off := by
  simp only [readWord, h, Bool.false_eq_true, if_false]

theorem hostRead_draws_free {s : State} {off : Offset} (h : readsFree off s = true) :
    (hostRead off s).draws = s.draws + 1 := if_pos h

theorem hostRead_draws_defined {s : State} {off : Offset} (h : readsFree off s = false) :
    (hostRead off s).draws = s.draws := by
  simp only [hostRead, deliver_draws, h, Bool.false_eq_true, if_false]

theorem readsFree_busy_iff {s : State} (hp : s.params.legal = true) (hbusy : s.status.busy = true) (off : Offset) :
    readsFree off s = true ↔ DataAt s.params off := by
  rw [readsFree, hbusy, Bool.true_and, regAt_isData_iff hp]

/-- Settles O42: a read only delivers its word, so the registers and which reads are free stay as they were. -/
theorem readsHaveNoSideEffect : Obligations.ReadsHaveNoSideEffect :=
  fun s off => ⟨fun _ => rfl, rfl, rfl, fun hfree =>
    (readWord_defined (s := hostRead off s) hfree).trans (readWord_defined hfree).symm⟩

/-- Settles O43: the reads that draw a free value are those of the data words the block has. -/
theorem busyDataReadsAreUnspecified : Obligations.BusyDataReadsAreUnspecified := by
  intro s off hlegal hbusy
  have hiff := readsFree_busy_iff hlegal hbusy off
  refine ⟨fun hdata => ?_, fun hdata => ?_⟩
  · have hfree := hiff.mpr hdata
    exact ⟨readWord_free hfree, hostRead_draws_free hfree⟩
  · have hdefined := Bool.eq_false_iff.mpr (mt hiff.mp hdata)
    exact ⟨readWord_defined hdefined, hostRead_draws_defined hdefined⟩

/-! ## Writes -/

/-- Settles O36: the listed offsets are those of CMD and the RW registers, where a busy block drops the write. -/
theorem busyWritesAreDropped : Obligations.BusyWritesAreDropped := by
  intro s off v hlegal hbusy
  have hiff := regAt_writable_iff hlegal off
  refine ⟨fun hlisted => hostWrite_dropped v (hiff.mpr hlisted) hbusy, fun hunlisted => ?_⟩
  obtain ⟨hcmd, hrw⟩ := not_or.mp (mt hiff.mp hunlisted)
  exact hostWrite_ignored v hcmd (Bool.eq_false_iff.mpr hrw)

/-- Settles O38: each of these offsets reaches `absent`. -/
theorem absentWordsReadZeroAndIgnoreWrites : Obligations.AbsentWordsReadZeroAndIgnoreWrites := by
  intro s off v hlegal
  refine ⟨fun h => ?_, ⟨_, rfl⟩, ⟨_, rfl⟩⟩
  have hreg := regAt_absent hlegal h
  refine ⟨?_, hostWrite_ignored v (hreg ▸ nofun) (hreg ▸ rfl)⟩
  rw [readWord_not_data (hreg ▸ rfl), hreg, State.regValue]

theorem hostWrite_congr {off off' : Offset} (h : wordOffset off = wordOffset off') (v : Word) (s : State) :
    hostWrite off v s = hostWrite off' v s := by
  simp only [hostWrite, regAt_congr s.params h]

theorem readWord_congr {off off' : Offset} (h : wordOffset off = wordOffset off') (s : State) :
    readWord off s = readWord off' s := by
  unfold readWord readsFree State.peek
  rw [regAt_congr s.params h]

/-! ## A step as its arrival -/

/-- The state that a step which completes no command takes its first arrival from, with `rest` to arrive after it. -/
def State.ArrivesOn (s : State) (rest : List Input) (u : State) : Prop :=
  (s.phase = .idle ∧ u = { s with inputs := rest }) ∨
  ∃ w left, s.phase = .busy w ∧ s.cyclesLeft = left + 1 ∧
    u = { s with inputs := rest, work := workAfter w s, cyclesLeft := left }

theorem arrive_nil {s : State} (h : s.inputs = []) : arrive s = .next s := by
  rw [arrive, h]

theorem arrive_cons {s : State} {x : Input} {rest : List Input} (h : s.inputs = x :: rest) :
    arrive s = performInput x { s with inputs := rest } := by
  rw [arrive, h]

theorem step_eq_performInput {s u : State} {x : Input} {rest : List Input} (hinputs : s.inputs = x :: rest)
    (hu : s.ArrivesOn rest u) : step s = performInput x u := by
  rcases hu with ⟨hphase, rfl⟩ | ⟨w, left, hphase, hleft, rfl⟩
  · exact (step_idle hphase).trans (arrive_cons hinputs)
  · exact (step_running hphase hleft).trans (arrive_cons hinputs)

/-- In a step nothing arrives and it answers a next state, or what arrives is performed. -/
theorem step_arriving_cases (s : State) :
    (s.arriving = none ∧ ∃ t, step s = .next t) ∨ ∃ x u, s.arriving = some x ∧ step s = performInput x u := by
  rcases step_cases s with ⟨hphase, hinputs, e⟩ | ⟨x, rest, hphase, hinputs, e⟩ | ⟨w, hw, e⟩ |
    ⟨w, left, hphase, hleft, hinputs, e⟩ | ⟨w, left, x, rest, hphase, hleft, hinputs, e⟩
  · exact .inl ⟨by simp [State.arriving, hphase, hinputs], _, e⟩
  · exact .inr ⟨x, _, by simp [State.arriving, hphase, hinputs], e⟩
  · obtain ⟨t, ht, _⟩ := completeCommand_next w s
    exact .inl ⟨hw.arriving, t, e.trans ht⟩
  · exact .inl ⟨by simp [State.arriving, hphase, hleft, hinputs], _, e⟩
  · exact .inr ⟨x, _, by simp [State.arriving, hphase, hleft, hinputs], e⟩

theorem step_narrowWrite {s : State} {off : Offset} {width : NarrowWidth} {v : Word}
    (h : s.arriving = some (.narrowWrite off width v)) : step s = .refused (.narrowWrite off width) := by
  rcases step_arriving_cases s with ⟨hnone, _⟩ | ⟨x, u, hx, e⟩
  · rw [hnone] at h
    cases h
  · cases hx.symm.trans h
    exact e

/-- An arrival other than a narrower write answers a next state. -/
theorem performInput_next {x : Input} (hx : ∀ off width v, x ≠ .narrowWrite off width v) (s : State) :
    ∃ t, performInput x s = .next t := by
  cases x with
  | narrowWrite off width v => exact absurd rfl (hx off width v)
  | _ => exact ⟨_, rfl⟩

theorem step_next {s : State} (h : ∀ off width v, s.arriving ≠ some (.narrowWrite off width v)) :
    ∃ t, step s = .next t := by
  rcases step_arriving_cases s with ⟨_, hnext⟩ | ⟨x, u, hx, e⟩
  · exact hnext
  · rw [e]
    exact performInput_next (fun off width v hxv => h off width v (hx.trans (congrArg some hxv))) u

/-- Settles O41: an offset acts by its word alone, and a narrower read delivers the bits `busBit` selects. -/
theorem accessWidthsAndLowAddressBits : Obligations.AccessWidthsAndLowAddressBits := by
  refine ⟨fun s off off' v h => ?_, fun s off width v => step_narrowWrite, fun bus off width => ?_, ⟨rfl, rfl⟩,
    fun s off width => ⟨rfl, rfl⟩, fun s off hbus => ?_⟩
  · have hword := wordOffset_congr h
    exact ⟨hostWrite_congr hword v s, readWord_congr hword s⟩
  · refine ⟨busBit bus off width, busBit_lt bus off width, fun s hbus => ⟨_, rfl, fun i => ?_⟩⟩
    rw [hbus]
    exact selectLanes_getLsbD bus off width _ i
  · have hlanes (width : NarrowWidth) (h : off.toNat % (width.bits / 8) = 0) :=
      congrArg (· :: s.reads) (hbus ▸ selectLanes_numbered off width (readWord off s) h)
    exact ⟨hlanes .byte (Nat.mod_one _), hlanes .half⟩

/-- Settles O54: by the arrival the step performs, and only `performInput`'s arm of a narrower write refuses. -/
theorem onlyNarrowWritesStopAStep : Obligations.OnlyNarrowWritesStopAStep := by
  refine ⟨fun s u x rest hinputs hu => ?_, fun s w left hphase hleft hinputs => ?_, fun s => ?_⟩
  · have hstep (y : Input) (hx : x = y) : step s = performInput y u := hx ▸ step_eq_performInput hinputs hu
    exact ⟨fun _ _ => hstep _, fun _ => hstep _, fun _ _ => hstep _, fun _ _ _ => hstep _, hstep _, hstep _, hstep _⟩
  · exact (step_running hphase hleft).trans (arrive_nil hinputs)
  · by_cases h : ∃ off width v, s.arriving = some (.narrowWrite off width v)
    · obtain ⟨off, width, v, h⟩ := h
      exact .inl ⟨off, width, v, h, step_narrowWrite h⟩
    · simp only [not_exists] at h
      exact .inr ⟨h, step_next h⟩

end Sys2Proof.Machine
end

section
/-! PROOF. The encoding (spec/30_encoding.md): the fields of a command's word and the rows in terms of the fields, then the
round trips of the decoder with the encoder (O1, O2) and of the disassembler with the assembler (O6), and the ILLEGAL words. -/

namespace Sys2Proof

/-! ## What a word decodes to -/

theorem decode_evalRow {w : Word} (h : w &&& 0x0000F8FF = 0x00000001) :
    decode w = .instr (.eval (ruleField w) (leftField w) (centerField w) (rightField w)) := by
  rw [decode, if_pos ((evalRow_covers_iff w).mpr h)]

theorem decode_instr_cases {w : Word} {i : Instr} (h : decode w = .instr i) :
    (w &&& 0x0000F8FF = 0x00000001 ∧ i = .eval (ruleField w) (leftField w) (centerField w) (rightField w)) ∨
    (w = 0x00000002 ∧ i = .encode) := by
  rcases decode_cases w with ⟨hrow, e⟩ | ⟨hw, e⟩ | ⟨_, _, e⟩ <;> cases h.symm.trans e
  · exact .inl ⟨hrow, rfl⟩
  · exact .inr ⟨hw, rfl⟩

theorem decode_illegal_iff (w : Word) (why : IllegalWord) :
    decode w = .illegal why ↔ w &&& 0x0000F8FF ≠ 0x00000001 ∧ w ≠ 0x00000002 ∧ illegalReason w = why := by
  rcases decode_cases w with ⟨hrow, e⟩ | ⟨hw, e⟩ | ⟨hrow, hw, e⟩ <;> rw [e]
  · exact ⟨nofun, fun h => absurd hrow h.1⟩
  · exact ⟨nofun, fun h => absurd hw h.2.1⟩
  · exact ⟨fun h => ⟨hrow, hw, Command.illegal.inj h⟩, fun h => congrArg Command.illegal h.2.2⟩

/-! ## The fields of EVAL's word -/

theorem encode_eval_row (rule : HalfWord) (l c r : Bool) : encode (.eval rule l c r) &&& 0x0000F8FF = 0x00000001 :=
  (evalRow_covers_iff _).mp (Laws.WordOfItsRow.eval rule l c r).1

@[simp] theorem ruleField_encode_eval (rule : HalfWord) (l c r : Bool) : ruleField (encode (.eval rule l c r)) = rule := by
  apply BitVec.eq_of_getLsbD_eq
  intro i hi
  interval_cases i <;> simp [ruleField, encode]

@[simp] theorem leftField_encode_eval (rule : HalfWord) (l c r : Bool) : leftField (encode (.eval rule l c r)) = l := by
  simp [leftField, encode]

@[simp] theorem centerField_encode_eval (rule : HalfWord) (l c r : Bool) :
    centerField (encode (.eval rule l c r)) = c := by
  simp [centerField, encode]

@[simp] theorem rightField_encode_eval (rule : HalfWord) (l c r : Bool) : rightField (encode (.eval rule l c r)) = r := by
  simp [rightField, encode]

/-- The row fixes every bit of a word of EVAL's row that stands in no field (R61, R65). -/
theorem encode_eval_fields {w : Word} (h : w &&& 0x0000F8FF = 0x00000001) :
    encode (.eval (ruleField w) (leftField w) (centerField w) (rightField w)) = w := by
  apply BitVec.eq_of_getLsbD_eq
  intro i hi
  have hbit := (and_eq_iff_bits w _ _).mp h i hi
  interval_cases i <;> simp_all [encode, ruleField, leftField, centerField, rightField]

/-! ## The rows by OP and the reserved bits -/

theorem extractLsb'_eq_iff_bits (w : Word) (start : Nat) {n : Nat} (x : BitVec n) :
    w.extractLsb' start n = x ↔ ∀ i, i < n → w.getLsbD (start + i) = x.getLsbD i := by
  simp +contextual [BitVec.eq_of_getLsbD_eq_iff]

/-- The mask keeps the bits of OP and of the two reserved fields, and the match says what each of them is. -/
theorem evalRow_iff_fields (w : Word) :
    w &&& 0x0000F8FF = 0x00000001 ↔ opField w = 1#4 ∧ w.extractLsb' 4 4 = 0#4 ∧ w.extractLsb' 11 5 = 0#5 := by
  simp only [and_eq_iff_bits, opField, extractLsb'_eq_iff_bits, Nat.forall_lt_succ_right]
  simp [and_assoc]

theorem encodeRow_iff_fields (w : Word) : w = 0x00000002 ↔ opField w = 2#4 ∧ w.extractLsb' 4 28 = 0#28 := by
  constructor
  · rintro rfl
    decide
  · rintro ⟨hop, hreserved⟩
    have hfields : w.extractLsb' 4 28 ++ opField w = w := BitVec.extractLsb'_append_extractLsb'
    rw [← hfields, hop, hreserved]
    rfl

/-! ## The decoder and the encoder -/

/-- Settles O1: EVAL's word is of EVAL's row and its fields are the operands; ENCODE's word is the one of its row. -/
theorem decodeOfEncodeIsTheCommand : Obligations.DecodeOfEncodeIsTheCommand := by
  intro i _
  cases i with
  | eval rule l c r => simp [decode_evalRow (encode_eval_row rule l c r)]
  | encode => decide

/-- Settles O2: the row and the fields give every bit of the word. -/
theorem encodeOfDecodeIsTheWord : Obligations.EncodeOfDecodeIsTheWord := by
  intro w i h
  rcases decode_instr_cases h with ⟨hrow, rfl⟩ | ⟨rfl, rfl⟩
  · exact encode_eval_fields hrow
  · rfl

/-- Settles O3: the three outcomes of `decode`, and the table's rows are disjoint. -/
theorem decodeByMatchAndMask : Obligations.DecodeByMatchAndMask := by
  refine fun w => ⟨decode_evalRow, fun h => h ▸ rfl, fun heval hencode => ⟨illegalReason w, ?_⟩, fun h => ?_⟩
  · exact (decode_illegal_iff w _).mpr ⟨heval, hencode, rfl⟩
  · exact opcodeTable_disjoint w ⟨(evalRow_covers_iff w).mpr h.1, (encodeRow_covers_iff w).mpr h.2⟩

/-- Settles O4: by the value of OP, which leaves only one row's reserved bits to look at. -/
theorem illegalWordsAreTheUnencodedOnes : Obligations.IllegalWordsAreTheUnencodedOnes := by
  intro w
  have hop : w.extractLsb' 0 4 = opField w := rfl
  simp only [decode_illegal_iff, ne_eq, evalRow_iff_fields, encodeRow_iff_fields, illegalReason, hop]
  by_cases h1 : opField w = 1#4
  · simp [h1, imp_iff_not_or]
  · by_cases h2 : opField w = 2#4 <;> simp [h1, h2]

/-- Settles O5: `decode` evaluates at each word. -/
theorem writtenOutWordsDecode : Obligations.WrittenOutWordsDecode := by
  unfold Obligations.WrittenOutWordsDecode
  decide

/-! ## The assembler and the disassembler -/

/-- A command in the form the disassembler lists it in (R72). -/
def Instr.source : Instr → SourceCommand
  | .eval rule left center right => .eval rule.toNat left.toNat center.toNat right.toNat
  | .encode => .encode

theorem disassemble_instr {w : Word} {i : Instr} (h : decode w = .instr i) : disassemble w = .command i.source := by
  rw [disassemble, h]
  cases i <;> rfl

theorem source_wellFormed (i : Instr) : i.source.wellFormed = true := by
  cases i with
  | eval rule l c r =>
    have hrule : rule.toNat ≤ 65535 := Nat.le_of_lt_succ rule.isLt
    simp [Instr.source, SourceCommand.wellFormed, hrule, Bool.toNat_le]
  | encode => rfl

theorem source_instr? (i : Instr) : i.source.instr? = some i := by
  have hfits := source_wellFormed i
  cases i with
  | eval rule l c r =>
    have hbit (b : Bool) : b.toNat.testBit 0 = b := by cases b <;> rfl
    simp only [Instr.source] at hfits
    simp [Instr.source, SourceCommand.instr?, hfits, hbit]
  | encode => rfl

/-- Settles O6: what is listed reads back as the command, whose word is `w` (O2). -/
theorem assembleOfDisassembleIsTheWord : Obligations.AssembleOfDisassembleIsTheWord := by
  intro w i h
  refine ⟨i.source, disassemble_instr h, source_wellFormed i, ?_⟩
  rw [assemble, source_instr?, Option.map_some, encodeOfDecodeIsTheWord w i h]

end Sys2Proof
end

section
/-! PROOF. What EVAL of a legal rule leaves (O10), and the host's WAIT (O58). -/

namespace Sys2Proof.Machine

theorem nbhdIndex_lt (l c r : Bool) : nbhdIndex l c r < 8 := by
  revert l c r
  decide

/-- The lookup in a rule's low byte is the lookup in the whole RULE field: the index is below 8. -/
theorem evaluateRule_setWidth (rule : HalfWord) (l c r : Bool) :
    evaluateRule (rule.setWidth 8) l c r = rule.getLsbD (nbhdIndex l c r) := by
  simp [evaluateRule, nbhdIndex_lt]

/-- Settles O10: a legal rule ends EVAL by `evalDone` with the looked-up bit. -/
theorem evalWritesTheIndexedBit : Obligations.EvalWritesTheIndexedBit := by
  intro s rule l c r hrule
  rw [exec_eval_legal hrule, evaluateRule_setWidth]
  rfl

/-- Settles O58: an idle block's poll lets WAIT go; a running command's cycle is one more, and its poll puts WAIT back. -/
theorem waitPollsUntilIdle : Obligations.WaitPollsUntilIdle := by
  refine fun s rest hinputs => ⟨fun hphase hbusy => ?_, fun w left hphase hleft hbusy => ⟨workAfter w s, ?_⟩⟩
  · rw [step_eq_performInput hinputs (.inl ⟨hphase, rfl⟩), performInput, pollWait_idle]
    exact hbusy
  · rw [step_eq_performInput hinputs (.inr ⟨w, left, hphase, hleft, rfl⟩), performInput, pollWait_busy, hinputs]
    exact hbusy

end Sys2Proof.Machine
end

section
/-! PROOF. The Rule Evaluator (spec/40_rule_evaluator.md): a rule's outputs are its bits (O13), EVAL reads its word alone (O12);
a round as an operation on the sequence's integer (O18), where it loses information (O20); the commands after reset (O46). -/

namespace Sys2Proof.Machine

/-! ## A rule's outputs -/

theorem nbhdIndex_testBit {idx : Nat} (h : idx < 8) :
    nbhdIndex (idx.testBit 2) (idx.testBit 1) (idx.testBit 0) = idx := by
  revert idx
  decide

theorem evaluateRule_testBit (rule : RuleId) {idx : Nat} (h : idx < 8) :
    evaluateRule rule (idx.testBit 2) (idx.testBit 1) (idx.testBit 0) = rule.getLsbD idx := by
  rw [evaluateRule, nbhdIndex_testBit h]

/-- The low bits of a number spell it (the sum of R77). -/
theorem sum_testBit_mul_two_pow (x n : Nat) :
    ((List.range n).map fun i => (x.testBit i).toNat * 2 ^ i).sum = x % 2 ^ n := by
  induction n with
  | zero => simp [Nat.mod_one]
  | succ n ih =>
    rw [List.range_succ, List.map_append, List.sum_append, ih, Nat.mod_pow_succ, List.map_singleton, List.sum_singleton,
      Nat.toNat_testBit, Nat.mul_comm]

theorem eq_of_evaluateRule_eq {rule rule' : RuleId} (h : ∀ l c r, evaluateRule rule l c r = evaluateRule rule' l c r) :
    rule = rule' := by
  apply BitVec.eq_of_getLsbD_eq
  intro idx hidx
  rw [← evaluateRule_testBit rule hidx, ← evaluateRule_testBit rule' hidx, h]

theorem evaluateRule_identity : ∀ l c r, evaluateRule 204 l c r = c := by decide

theorem evaluateRule_complement : ∀ l c r, evaluateRule 51 l c r = !c := by decide

theorem evaluateRule_right : ∀ l c r, evaluateRule 170 l c r = r := by decide

theorem evaluateRule_left : ∀ l c r, evaluateRule 240 l c r = l := by decide

theorem evaluateRule_zero (l c r : Bool) : evaluateRule 0 l c r = false := BitVec.getLsbD_zero

theorem evaluateRule_all : ∀ l c r, evaluateRule 255 l c r = true := by decide

theorem evaluateRule_left_xor_right : ∀ l c r, evaluateRule 90 l c r = (l ^^ r) := by decide

theorem evaluateRule_left_xor_center_xor_right : ∀ l c r, evaluateRule 150 l c r = (l ^^ c ^^ r) := by decide

/-- Settles O13: the neighbourhood of an index looks up the bit of that index, so the outputs are the bits and fix the rule. -/
theorem ruleTableIsComplete : Obligations.RuleTableIsComplete := by
  refine ⟨fun rule idx h => evaluateRule_testBit rule h, fun rule => ?_, fun r r' hne => ?_, fun l c r =>
    ⟨evaluateRule_identity l c r, evaluateRule_complement l c r, evaluateRule_right l c r, evaluateRule_left l c r,
      evaluateRule_zero l c r, evaluateRule_all l c r, evaluateRule_left_xor_right l c r,
      evaluateRule_left_xor_center_xor_right l c r⟩⟩
  · calc rule.toNat = rule.toNat % 2 ^ 8 := (Nat.mod_eq_of_lt rule.isLt).symm
      _ = ((List.range 8).map fun idx => (rule.getLsbD idx).toNat * 2 ^ idx).sum :=
        (sum_testBit_mul_two_pow rule.toNat 8).symm
      _ = _ := congrArg List.sum (List.map_congr_left fun idx h => by
        rw [evaluateRule_testBit rule (List.mem_range.mp h)])
  · by_contra! hsame
    exact hne (eq_of_evaluateRule_eq hsame)

/-! ## EVAL -/

/-- Settles O12: acceptance writes STATUS and ERRINFO by the word alone, and EVAL's completion by its operands. -/
theorem evalDependsOnItsWordOnly : Obligations.EvalDependsOnItsWordOnly := by
  intro s s' t t' w rule l c r _ h h'
  by_cases hrule : rule.toNat ≤ 255
  · cases (exec_eval_legal hrule l c r _).symm.trans h
    cases (exec_eval_legal hrule l c r _).symm.trans h'
    exact ⟨rfl, rfl, fun _ => rfl⟩
  · cases (exec_eval_illegal (Nat.not_le.mp hrule) l c r _).symm.trans h
    cases (exec_eval_illegal (Nat.not_le.mp hrule) l c r _).symm.trans h'
    exact ⟨rfl, rfl, fun hle => absurd hle hrule⟩

/-! ## A round in integer form -/

theorem seqAt_roundSeq (rule : RuleId) {s : BitSeq} {i : Nat} (h : i < s.length) :
    seqAt (roundSeq rule s) i = evaluateRule rule (leftOf s i) (seqAt s i) (rightOf s i) := by
  simp [seqAt, roundSeq, h]

/-- The left neighbour of a position is the next more significant bit, circularly (R100). -/
theorem leftOf_eq_testBit {s : BitSeq} {k : Nat} (h : k < s.length) :
    leftOf s (s.length - 1 - k) = (seqToInt s).testBit ((k + 1) % s.length) := by
  have hindex : (s.length - 1 - k + (s.length - 1)) % s.length = s.length - 1 - (k + 1) % s.length := by
    by_cases htop : k + 1 = s.length
    · rw [htop, Nat.mod_self, show s.length - 1 - k + (s.length - 1) = s.length - 1 by omega]
      exact Nat.mod_eq_of_lt (by omega)
    · rw [Nat.mod_eq_of_lt (show k + 1 < s.length by omega),
        show s.length - 1 - k + (s.length - 1) = s.length - 1 - (k + 1) + s.length by omega, Nat.add_mod_right]
      exact Nat.mod_eq_of_lt (by omega)
  rw [leftOf, seqToInt_testBit s _ (Nat.mod_lt _ (by omega)), hindex]

/-- The right neighbour of a position is the next less significant bit, circularly (R100). -/
theorem rightOf_eq_testBit {s : BitSeq} {k : Nat} (h : k < s.length) :
    rightOf s (s.length - 1 - k) = (seqToInt s).testBit ((k + (s.length - 1)) % s.length) := by
  have hindex : (s.length - 1 - k + 1) % s.length = s.length - 1 - (k + (s.length - 1)) % s.length := by
    cases k with
    | zero =>
      rw [Nat.zero_add, Nat.mod_eq_of_lt (show s.length - 1 < s.length by omega),
        show s.length - 1 - 0 + 1 = s.length by omega, Nat.mod_self, Nat.sub_self]
    | succ k =>
      rw [show k + 1 + (s.length - 1) = k + s.length by omega, Nat.add_mod_right,
        Nat.mod_eq_of_lt (show k < s.length by omega)]
      exact (Nat.mod_eq_of_lt (by omega)).trans (by omega)
  rw [rightOf, seqToInt_testBit s _ (Nat.mod_lt _ (by omega)), hindex]

/-- Bit `k` of a round's integer is the lookup on the integer's bits around `k` (R100). -/
theorem seqToInt_roundSeq_testBit (rule : RuleId) {s : BitSeq} {k : Nat} (h : k < s.length) :
    (seqToInt (roundSeq rule s)).testBit k =
      evaluateRule rule ((seqToInt s).testBit ((k + 1) % s.length)) ((seqToInt s).testBit k)
        ((seqToInt s).testBit ((k + (s.length - 1)) % s.length)) := by
  rw [← leftOf_eq_testBit h, ← rightOf_eq_testBit h, seqToInt_testBit s k h,
    seqToInt_testBit _ k (by rwa [roundSeq_length]), roundSeq_length, seqAt_roundSeq rule (by omega)]

theorem seqToInt_testBit_of_le {s : BitSeq} {k : Nat} (h : s.length ≤ k) : (seqToInt s).testBit k = false :=
  Nat.testBit_lt_two_pow (lt_of_lt_of_le (seqToInt_lt s) (Nat.pow_le_pow_right (by decide) h))

/-- A number is a round's integer when its low bits are the lookups and its other bits are 0. -/
theorem seqToInt_roundSeq_eq {rule : RuleId} {s : BitSeq} {x : Nat}
    (hlow : ∀ k, k < s.length →
      evaluateRule rule ((seqToInt s).testBit ((k + 1) % s.length)) ((seqToInt s).testBit k)
        ((seqToInt s).testBit ((k + (s.length - 1)) % s.length)) = x.testBit k)
    (hhigh : ∀ k, s.length ≤ k → x.testBit k = false) : seqToInt (roundSeq rule s) = x := by
  apply Nat.eq_of_testBit_eq
  intro k
  by_cases hk : k < s.length
  · rw [seqToInt_roundSeq_testBit rule hk, hlow k hk]
  · have hk' := Nat.not_lt.mp hk
    rw [hhigh k hk', seqToInt_testBit_of_le (by rwa [roundSeq_length])]

theorem seqToInt_roundSeq_identity (s : BitSeq) : seqToInt (roundSeq 204 s) = seqToInt s :=
  seqToInt_roundSeq_eq (fun _ _ => evaluateRule_identity _ _ _) fun _ => seqToInt_testBit_of_le

theorem seqToInt_roundSeq_complement (s : BitSeq) :
    seqToInt (roundSeq 51 s) = 2 ^ s.length - 1 - seqToInt s := by
  have hbits (k : Nat) : (2 ^ s.length - 1 - seqToInt s).testBit k =
      (decide (k < s.length) && !(seqToInt s).testBit k) := by
    rw [Nat.sub_sub, Nat.add_comm, Nat.testBit_two_pow_sub_succ (seqToInt_lt s)]
  refine seqToInt_roundSeq_eq (fun k hk => ?_) fun k hk => ?_
  · simp only [evaluateRule_complement, hbits, hk, decide_true, Bool.true_and]
  · simp [hbits, Nat.not_lt.mpr hk]

/-- Rule 170 takes the right neighbour: bit `k` comes from bit `k - 1`, bit 0 from the top bit. -/
theorem seqToInt_roundSeq_rotateLeft {s : BitSeq} (h : 1 ≤ s.length) :
    seqToInt (roundSeq 170 s) = ((seqToInt s <<< 1) ||| (seqToInt s >>> (s.length - 1))) % 2 ^ s.length := by
  refine seqToInt_roundSeq_eq (fun k hk => ?_) fun k hk => ?_
  · rw [evaluateRule_right]
    cases k with
    | zero => simp [hk, Nat.mod_eq_of_lt (show s.length - 1 < s.length by omega)]
    | succ k =>
      rw [show k + 1 + (s.length - 1) = k + s.length by omega, Nat.add_mod_right,
        Nat.mod_eq_of_lt (show k < s.length by omega)]
      simp [hk, Nat.testBit_shiftRight, seqToInt_testBit_of_le (show s.length ≤ s.length - 1 + (k + 1) by omega)]
  · simp [Nat.testBit_mod_two_pow, Nat.not_lt.mpr hk]

theorem rotateRight_testBit (a m k : Nat) :
    ((a >>> 1) ||| ((a &&& 1) <<< m)).testBit k = (a.testBit (k + 1) || (decide (k = m) && a.testBit 0)) := by
  have hlow : a &&& 1 = a % 2 ^ 1 := Nat.and_one_is_mod a
  rw [Nat.testBit_or, Nat.testBit_shiftRight, Nat.testBit_shiftLeft, hlow, Nat.testBit_mod_two_pow, Nat.add_comm 1 k]
  by_cases hk : m ≤ k
  · obtain ⟨j, rfl⟩ := Nat.exists_eq_add_of_le hk
    cases j <;> simp
  · simp [hk, show k ≠ m by omega]

/-- Rule 240 takes the left neighbour: bit `k` comes from bit `k + 1`, the top bit from bit 0. -/
theorem seqToInt_roundSeq_rotateRight {s : BitSeq} (h : 1 ≤ s.length) :
    seqToInt (roundSeq 240 s) = (seqToInt s >>> 1) ||| ((seqToInt s &&& 1) <<< (s.length - 1)) := by
  refine seqToInt_roundSeq_eq (fun k hk => ?_) fun k hk => ?_
  · rw [evaluateRule_left, rotateRight_testBit]
    by_cases htop : k = s.length - 1
    · rw [show k + 1 = s.length by omega, Nat.mod_self, seqToInt_testBit_of_le (Nat.le_refl _)]
      simp [htop]
    · rw [Nat.mod_eq_of_lt (show k + 1 < s.length by omega)]
      simp [htop]
  · rw [rotateRight_testBit, seqToInt_testBit_of_le (by omega)]
    simp [show k ≠ s.length - 1 by omega]

/-- Settles O18: the bits around bit `k` are the neighbourhood of its position, and the four rules follow bit by bit. -/
theorem roundInIntegerForm : Obligations.RoundInIntegerForm :=
  fun s h => ⟨fun rule _ hk => seqToInt_roundSeq_testBit rule hk, seqToInt_roundSeq_rotateLeft h,
    seqToInt_roundSeq_rotateRight h, seqToInt_roundSeq_identity s, seqToInt_roundSeq_complement s⟩

theorem roundSeq_zero (s : BitSeq) : roundSeq 0 s = List.replicate s.length false := by
  simp only [roundSeq, evaluateRule_zero, List.map_const', List.length_range]

/-- Settles O20: under rule 0 every lookup is 0; the three rounds under rule 45 evaluate. -/
theorem transformIsNotInvertible : Obligations.TransformIsNotInvertible :=
  ⟨roundSeq_zero, by decide, by decide, by decide⟩

/-! ## The commands after reset -/

theorem exec_encode_no_rules {s : State} (h : s.nRules = 0) :
    exec .encode s = .next (failCommand .emptyRuleset 0 s) := by
  have hv : validate s = some (.emptyRuleset, 0) := if_pos h
  simp only [exec, execEncode, hv]

theorem opField_of_decode_eval {w : Word} {rule : HalfWord} {l c r : Bool} (h : decode w = .instr (.eval rule l c r)) :
    opField w = 1 := by
  rcases decode_instr_cases h with ⟨hrow, _⟩ | ⟨_, hi⟩
  · exact ((evalRow_iff_fields w).mp hrow).1
  · cases hi

/-- STATUS after a successful EVAL: DONE, and LASTOP EVAL's OP (R18, R59, R76). -/
theorem word_succeeded_accepted_eval {w : Word} (h : opField w = 1) :
    (Status.accepted w).succeeded.word = 0x00001002 := by
  rw [Status.accepted, h]
  decide

/-- Settles O46: the step performs the placed command (O7); NRULES is 0 after reset, and EVAL reads no register. -/
theorem commandsAfterReset : Obligations.CommandsAfterReset := by
  refine fun p => ⟨?_, fun w rule l c r hd hrule => ?_⟩
  · have hstep := stepRunsTheDecodedCommand.2 (State.resetOf p) 2 .encode (by decide)
    refine ⟨_, hstep.trans (exec_encode_no_rules rfl), ?_, rfl⟩
    exact (by decide : ((Status.accepted (tableWord 32 2)).failed .emptyRuleset).word = 0x00002116)
  · have hstep := stepRunsTheDecodedCommand.2 (State.resetOf p) w _ hd
    exact ⟨_, hstep.trans (exec_eval_legal hrule l c r _),
      word_succeeded_accepted_eval (opField_of_decode_eval (decode_tableWord hd)), rfl⟩

end Sys2Proof.Machine
end

section
/-! PROOF. The Round Driver (spec/41_round_driver.md): a round and the transform (O14 to O16), what the words of a successful ENCODE
are (O28 to O30), and what ENCODE depends on (O31, O32). -/

namespace Sys2Proof.Machine

/-! ## A round and the transform -/

theorem getElem?_eq_seqAt {s : BitSeq} {i : Nat} (h : i < s.length) : s[i]? = some (seqAt s i) := by
  rw [seqAt, List.getD_eq_getElem _ _ h, List.getElem?_eq_getElem h]

/-- Settles O14: both neighbours are positions of the sequence, and the round looks all three bits up in the old one. -/
theorem roundLooksUpEveryNeighbourhood : Obligations.RoundLooksUpEveryNeighbourhood := by
  refine fun rule s hpos => ⟨roundSeq_length rule s, fun i hi => ⟨leftOf s i, rightOf s i,
    getElem?_eq_seqAt (Nat.mod_lt _ hpos), getElem?_eq_seqAt (Nat.mod_lt _ hpos), ?_⟩⟩
  have hcenter : seqAt s i = s[i] := List.getD_eq_getElem s false hi
  rw [getElem?_eq_seqAt (by rwa [roundSeq_length]), seqAt_roundSeq rule hi, hcenter]
  rfl

theorem ruleOfRound_eq {rs : List RuleId} {r : Nat} {rule : RuleId} (h : rs[r % rs.length]? = some rule) :
    ruleOfRound rs r = rule := by
  rw [ruleOfRound, List.getD_eq_getElem?_getD, h, Option.getD_some]

theorem encodePair_zero (a b : BitSeq) (rs : List RuleId) : encodePair a b rs 0 = (a, b) := rfl

theorem encodePair_succ (a b : BitSeq) (rs : List RuleId) (r : Nat) :
    encodePair a b rs (r + 1) =
      (roundSeq (ruleOfRound rs r) (encodePair a b rs r).1, roundSeq (ruleOfRound rs r) (encodePair a b rs r).2) := rfl

/-- Settles O15: the recursion of `evolve`, with the rule of the round looked up in the RuleSet. -/
theorem roundsRunInRoundRobinOrder : Obligations.RoundsRunInRoundRobinOrder :=
  ⟨encodePair_zero, fun a b rs r _ hrule => ruleOfRound_eq hrule ▸ encodePair_succ a b rs r⟩

/-- Settles O16: each sequence evolves by rounds, and a round keeps the length. -/
theorem transformKeepsLength : Obligations.TransformKeepsLength :=
  fun a b rs r => ⟨evolve_length rs r a, evolve_length rs r b⟩

/-! ## The words of a successful ENCODE -/

/-- The words a data file takes from `v`, the integer it held before (R91). -/
def State.encodedWords (s : State) (v : Nat) : List Word :=
  natToWords s.params.nw (seqToInt (evolve s.ruleSet s.rounds.toNat (intToSeq v s.aLen.toNat)))

/-- A successful ENCODE computes each data file from that file's own integer (R84, R91). -/
theorem encodeDone_encodeResult_data (s : State) :
    (encodeDone (encodeResult s) s).aData = s.encodedWords s.aInt ∧
    (encodeDone (encodeResult s) s).bData = s.encodedWords s.bInt := ⟨rfl, rfl⟩

theorem exec_encode_data {s t : State} (hready : s.EncodeReady) (h : exec .encode s = .next t) :
    t.aData = s.encodedWords s.aInt ∧ t.bData = s.encodedWords s.bInt := by
  cases (exec_encode_ready hready).symm.trans h
  exact encodeDone_encodeResult_data s

/-- No rounds write a file's integer back unchanged (R86). -/
theorem encodedWords_zero_rounds {s : State} {ws : List Word} (hrounds : s.rounds = 0) (hlength : ws.length = s.params.nw)
    (hfits : wordsToNat ws < 2 ^ s.aLen.toNat) : s.encodedWords (wordsToNat ws) = ws := by
  have hevolve : evolve s.ruleSet s.rounds.toNat (intToSeq (wordsToNat ws) s.aLen.toNat) =
      intToSeq (wordsToNat ws) s.aLen.toNat := by
    rw [hrounds]
    rfl
  rw [State.encodedWords, hevolve, seqToInt_intToSeq _ _ hfits, ← hlength, natToWords_wordsToNat]

/-- Settles O28: with operands that pass the checks no rounds write both files back; others end ENCODE by `failCommand`. -/
theorem encodeOfZeroRoundsIsTheIdentity : Obligations.EncodeOfZeroRoundsIsTheIdentity := by
  refine ⟨encodePair_zero, fun s hfiles hready hrounds => ?_, fun s hnot _ => ?_⟩
  · obtain ⟨ha, hb⟩ := encodeDone_encodeResult_data s
    exact ⟨_, exec_encode_ready hready, ha.trans (encodedWords_zero_rounds hrounds hfiles.aData hready.aFits),
      hb.trans (encodedWords_zero_rounds hrounds hfiles.bData hready.bFits), rfl⟩
  · obtain ⟨c, x, h⟩ := exec_encode_not_ready hnot
    exact ⟨_, h, rfl⟩

/-- The transform keeps the length `n`, so its integer stays below 2^n (R92). -/
theorem wordsToNat_encodedWords_lt (s : State) (v : Nat) : wordsToNat (s.encodedWords v) < 2 ^ s.aLen.toNat := by
  have hlt := seqToInt_lt (evolve s.ruleSet s.rounds.toNat (intToSeq v s.aLen.toNat))
  rw [evolve_length, intToSeq_length] at hlt
  rw [State.encodedWords, wordsToNat_natToWords]
  exact lt_of_le_of_lt (Nat.mod_le _ _) hlt

theorem getLsbD_getD_of_wordsToNat_lt {ws : List Word} {n k j : Nat} (h : wordsToNat ws < 2 ^ n) (hj : j < 32)
    (hn : n ≤ 32 * k + j) : (ws.getD k 0).getLsbD j = false := by
  have hbit := wordsToNat_testBit ws (32 * k + j)
  rw [show (32 * k + j) / 32 = k by omega, show (32 * k + j) % 32 = j by omega] at hbit
  rw [← hbit]
  exact Nat.testBit_lt_two_pow (lt_of_lt_of_le h (Nat.pow_le_pow_right (by decide) hn))

theorem getD_of_wordsToNat_lt {ws : List Word} {n k : Nat} (h : wordsToNat ws < 2 ^ n) (hn : n ≤ 32 * k) :
    ws.getD k 0 = 0 := by
  apply BitVec.eq_of_getLsbD_eq
  intro j hj
  rw [getLsbD_getD_of_wordsToNat_lt h hj (by omega)]
  exact BitVec.getLsbD_zero.symm

/-- Settles O29: both files hold integers below 2^n, so the bits and the words at `n` and above are 0. -/
theorem encodeResultFitsItsLength : Obligations.EncodeResultFitsItsLength := by
  intro s hready
  have ha := wordsToNat_encodedWords_lt s s.aInt
  have hb := wordsToNat_encodedWords_lt s s.bInt
  obtain ⟨hta, htb⟩ := encodeDone_encodeResult_data s
  rw [← hta] at ha
  rw [← htb] at hb
  exact ⟨_, exec_encode_ready hready, ha, hb,
    fun k j hj hn => ⟨getLsbD_getD_of_wordsToNat_lt ha hj hn, getLsbD_getD_of_wordsToNat_lt hb hj hn⟩,
    fun k hn => ⟨getD_of_wordsToNat_lt ha hn, getD_of_wordsToNat_lt hb hn⟩⟩

/-- Settles O30: each file's words come from its own integer, the RuleSet, ROUNDS and the length, which all stay. -/
theorem sequencesEvolveIndependently : Obligations.SequencesEvolveIndependently := by
  refine ⟨fun s t t' b' hs hs' h h' => ?_, fun s t t' a' hs hs' h h' => ?_⟩
  · rw [(exec_encode_data hs h).1, (exec_encode_data hs' h').1]
    rfl
  · rw [(exec_encode_data hs h).2, (exec_encode_data hs' h').2]
    rfl

/-! ## What ENCODE depends on -/

/-- The two states hold the same operands of ENCODE: of the rule slots only those below NRULES (R80, R89, R90). -/
structure State.SameEncodeOperands (s t : State) : Prop where
  params : t.params = s.params
  aLen : t.aLen = s.aLen
  bLen : t.bLen = s.bLen
  nRules : t.nRules = s.nRules
  rounds : t.rounds = s.rounds
  slots : ∀ j, j < s.nRules.toNat → t.slot j = s.slot j
  aInt : t.aInt = s.aInt
  bInt : t.bInt = s.bInt

section
variable {s t : State} (h : s.SameEncodeOperands t)
include h

theorem State.SameEncodeOperands.ruleSet : t.ruleSet = s.ruleSet := by
  simp only [State.ruleSet, h.nRules]
  exact List.map_congr_left fun j hj => by rw [h.slots j (List.mem_range.mp hj)]

theorem State.SameEncodeOperands.firstBadSlot : t.firstBadSlot = s.firstBadSlot := by
  simp only [State.firstBadSlot, h.nRules]
  exact List.find?_congr fun j hj => by rw [h.slots j (List.mem_range.mp hj)]

theorem State.SameEncodeOperands.encodeResult : encodeResult t = encodeResult s := by
  simp only [Machine.encodeResult, h.aInt, h.bInt, h.aLen, h.rounds, h.ruleSet]

theorem State.SameEncodeOperands.validate : validate t = validate s := by
  simp only [Machine.validate, h.params, h.aLen, h.bLen, h.nRules, h.aInt, h.bInt, h.firstBadSlot]
  cases hbad : s.firstBadSlot with
  | none => rfl
  | some j =>
    have hj : j < s.nRules.toNat := List.mem_range.mp (List.mem_of_find?_eq_some hbad)
    simp only [h.slots j hj]

/-- The same operands end ENCODE alike: by the same error, or by writing the same pair back. -/
theorem State.SameEncodeOperands.exec_encode :
    (∃ c x, exec .encode s = .next (failCommand c x s) ∧ exec .encode t = .next (failCommand c x t)) ∨
    (∃ p, exec .encode s = .next (encodeDone p s) ∧ exec .encode t = .next (encodeDone p t)) := by
  simp only [exec, execEncode, h.validate, h.encodeResult]
  cases Machine.validate s with
  | some cx => exact .inl ⟨cx.1, cx.2, rfl, rfl⟩
  | none => exact .inr ⟨_, rfl, rfl⟩

end

theorem sameEncodeOperands_setSlot {s : State} {j : Nat} (v : HalfWord) (hj : s.nRules.toNat ≤ j) :
    s.SameEncodeOperands { s with ruleSlots := s.ruleSlots.set j v } where
  params := rfl
  aLen := rfl
  bLen := rfl
  nRules := rfl
  rounds := rfl
  slots i hi := getD_set_ne s.ruleSlots (by omega) v 0
  aInt := rfl
  bInt := rfl

/-- Settles O31: the slot is no operand, and neither completion touches it. -/
theorem slotsBeyondTheRulesetAreNotRead : Obligations.SlotsBeyondTheRulesetAreNotRead := by
  intro s j v hj
  rcases (sameEncodeOperands_setSlot v hj).exec_encode with ⟨c, x, hs, hset⟩ | ⟨p, hs, hset⟩
  · exact ⟨_, hs, hset⟩
  · exact ⟨_, hs, hset⟩

theorem operands_eq_iff {s s' : State} : s.operands = s'.operands ↔
    s.aLen = s'.aLen ∧ s.bLen = s'.bLen ∧ s.nRules = s'.nRules ∧ s.rounds = s'.rounds ∧ s.ruleSlots = s'.ruleSlots ∧
      s.aData = s'.aData ∧ s.bData = s'.bData := by
  simp only [State.operands, Prod.mk.injEq]

theorem sameEncodeOperands_accepted {s s' : State} (w : Word) (hops : s.operands = s'.operands)
    (hparams : s.params = s'.params) : (acceptCommand w s).SameEncodeOperands (acceptCommand w s') := by
  obtain ⟨haLen, hbLen, hnRules, hrounds, hslots, haData, hbData⟩ := operands_eq_iff.mp hops
  exact {
    params := hparams.symm
    aLen := haLen.symm
    bLen := hbLen.symm
    nRules := hnRules.symm
    rounds := hrounds.symm
    slots := fun j _ => congrArg (·.getD j 0) hslots.symm
    aInt := congrArg wordsToNat haData.symm
    bInt := congrArg wordsToNat hbData.symm }

/-- Settles O32: acceptance sets STATUS and ERRINFO by the word alone and keeps the operands, on which ENCODE's end depends. -/
theorem encodeDependsOnItsOperandsOnly : Obligations.EncodeDependsOnItsOperandsOnly := by
  intro s s' hops hparams
  obtain ⟨_, _, _, _, _, haData, hbData⟩ := operands_eq_iff.mp hops
  rcases (sameEncodeOperands_accepted 2 hops hparams).exec_encode with ⟨c, x, h, h'⟩ | ⟨p, h, h'⟩
  · exact ⟨_, _, h, h', haData, hbData, rfl, rfl⟩
  · refine ⟨_, _, h, h', ?_, ?_, rfl, rfl⟩
    · rw [encodeDone_aData, encodeDone_aData, acceptCommand_params, acceptCommand_params, hparams]
    · rw [encodeDone_bData, encodeDone_bData, acceptCommand_params, acceptCommand_params, hparams]

end Sys2Proof.Machine
end

section
/-! PROOF. The conversions of a sequence (spec/42_conversion.md R97, R98): the two undo each other (O17). -/

namespace Sys2Proof.Machine

/-- R98's sum; the head of a sequence has the highest weight and leaves the weights of the tail unchanged. -/
theorem seqToInt_eq_sum (s : BitSeq) :
    seqToInt s = ((List.range s.length).map fun i => (s.getD i false).toNat * 2 ^ (s.length - 1 - i)).sum := by
  induction s with
  | nil => rfl
  | cons b bs ih =>
    simp [seqToInt, ih, List.range_succ_eq_map, Function.comp_def, Nat.sub_sub, Nat.add_comm 1]

/-- Settles O17: a position is read by `testBit`, stated as a shift; the bound and the inverse laws are the lemmas of R98. -/
theorem conversionsUndoEachOther : Obligations.ConversionsUndoEachOther := by
  refine ⟨fun v n _ hv => ⟨intToSeq_length v n, fun i hi => ?_, seqToInt_intToSeq v n hv⟩,
    fun s => ⟨seqToInt_eq_sum s, seqToInt_lt s, intToSeq_seqToInt s⟩⟩
  rw [intToSeq_getElem? v n i hi, Nat.testBit_eq_decide_div_mod_eq, ← Nat.shiftRight_eq_div_pow]
  rfl

end Sys2Proof.Machine
end

section
/-! PROOF. The exceptions (spec/60_exceptions.md): the check that ends ENCODE (O23 to O27), what an error changes (O8, O34) and how
long it stays (O53); and the block at rest (O9). -/

namespace Sys2Proof.Machine

/-! ## The check that ends ENCODE -/

/-- A failing check ends ENCODE with its cause, the cause's class and its info (R90, R112). -/
theorem exec_encode_of_validate {s : State} {c : Cause} {x : Word} (h : validate s = some (c, x)) :
    exec .encode s = .next (s.errorOutcome (causeClass c) (causeCode c) x) := by
  simp only [exec, execEncode, h]
  rfl

theorem ne_zero_of_toNat_pos {n : Nat} {x : BitVec n} (h : 0 < x.toNat) : x ≠ 0 :=
  (BitVec.ne_of_lt h).symm

theorem firstBadSlot_eq_some {s : State} {j : Nat} (hj : j < s.nRules.toNat) (hbad : 255 < (s.slot j).toNat)
    (hfirst : ∀ j', j' < j → (s.slot j').toNat ≤ 255) : s.firstBadSlot = some j := by
  simpa [State.firstBadSlot, List.find?_range_eq_some] using ⟨hbad, hj, hfirst⟩

theorem firstBadSlot_eq_none {s : State} (h : ∀ j, j < s.nRules.toNat → (s.slot j).toNat ≤ 255) :
    s.firstBadSlot = none := by
  simpa [State.firstBadSlot] using h

theorem validate_too_many_rules {s : State} (hsome : s.nRules ≠ 0) (hmany : s.params.rmax < s.nRules.toNat) :
    validate s = some (.nrulesRange, s.nRules.setWidth 32) := by
  rw [validate, if_neg hsome, if_pos hmany]

theorem validate_bad_slot {s : State} {j : Nat} (hcount : s.nRules.toNat ≤ s.params.rmax) (hj : j < s.nRules.toNat)
    (hbad : 255 < (s.slot j).toNat) (hfirst : ∀ j', j' < j → (s.slot j').toNat ≤ 255) :
    validate s = some (.ruleRange, BitVec.ofNat 16 j ++ s.slot j) := by
  rw [validate, if_neg (ne_zero_of_toNat_pos (by omega)), if_neg (Nat.not_lt.mpr hcount),
    firstBadSlot_eq_some hj hbad hfirst]

section
variable {s : State} (hpos : 1 ≤ s.nRules.toNat) (hcount : s.nRules.toNat ≤ s.params.rmax)
  (hlegal : ∀ j, j < s.nRules.toNat → (s.slot j).toNat ≤ 255)
include hpos hcount hlegal

/-- With a legal RuleSet the checks of R90 that remain are those of the lengths and of the values. -/
theorem validate_legal_ruleset : validate s =
    if s.aLen ≠ s.bLen then some (.lenMismatch, s.bLen ++ s.aLen)
    else if s.aLen = 0 ∨ s.params.nmax < s.aLen.toNat then some (.lenRange, s.aLen.setWidth 32)
    else if 2 ^ s.aLen.toNat ≤ s.aInt then some (.valueRange, 0)
    else if 2 ^ s.aLen.toNat ≤ s.bInt then some (.valueRange, 1)
    else none := by
  rw [validate, if_neg (ne_zero_of_toNat_pos hpos), if_neg (Nat.not_lt.mpr hcount), firstBadSlot_eq_none hlegal]

/-- With legal lengths too only the values are left to check. -/
theorem validate_legal_lengths (hsame : s.aLen = s.bLen) (hlow : 1 ≤ s.aLen.toNat) (hhigh : s.aLen.toNat ≤ s.params.nmax) :
    validate s =
      if 2 ^ s.aLen.toNat ≤ s.aInt then some (.valueRange, 0)
      else if 2 ^ s.aLen.toNat ≤ s.bInt then some (.valueRange, 1)
      else none := by
  have hlength : ¬ (s.aLen = 0 ∨ s.params.nmax < s.aLen.toNat) :=
    not_or.mpr ⟨ne_zero_of_toNat_pos hlow, Nat.not_lt.mpr hhigh⟩
  rw [validate_legal_ruleset hpos hcount hlegal, if_neg (not_not.mpr hsame), if_neg hlength]

end

/-- Settles O23: the count of rules is checked first. -/
theorem rulesetSizeOutOfRangeFails : Obligations.RulesetSizeOutOfRangeFails :=
  fun _ => ⟨exec_encode_no_rules, fun hsome hmany => exec_encode_of_validate (validate_too_many_rules hsome hmany)⟩

/-- Settles O24: the slot is the first that the search over those below NRULES finds; EVAL checks its RULE field. -/
theorem ruleOutOfRangeFails : Obligations.RuleOutOfRangeFails :=
  ⟨fun _ _ hcount hj hbad hfirst => exec_encode_of_validate (validate_bad_slot hcount hj hbad hfirst),
    fun s _ l c r hrule => exec_eval_illegal hrule l c r s⟩

/-- Settles O25: the first check after those of the RuleSet. -/
theorem encodeOfDifferentLengthsFails : Obligations.EncodeOfDifferentLengthsFails :=
  fun _ hpos hcount hlegal hdiffer =>
    exec_encode_of_validate ((validate_legal_ruleset hpos hcount hlegal).trans (if_pos hdiffer))

/-- Settles O26: the check after that of equal lengths. -/
theorem encodeOfABadLengthFails : Obligations.EncodeOfABadLengthFails := by
  intro s hpos hcount hlegal hsame hlength
  apply exec_encode_of_validate (c := .lenRange)
  rw [validate_legal_ruleset hpos hcount hlegal, if_neg (not_not.mpr hsame), if_pos hlength]

/-- Settles O27: the two last checks, A_INT's before B_INT's. -/
theorem encodeOfALargeValueFails : Obligations.EncodeOfALargeValueFails := by
  intro s hpos hcount hlegal hsame hlow hhigh
  have hvalues := validate_legal_lengths hpos hcount hlegal hsame hlow hhigh
  refine ⟨fun ha => ?_, fun ha hb => ?_⟩
  · rw [if_pos ha] at hvalues
    exact exec_encode_of_validate hvalues
  · rw [if_neg (Nat.not_le.mpr ha), if_pos hb] at hvalues
    exact exec_encode_of_validate hvalues

/-! ## What an error changes -/

/-- Settles O8: the completing step takes the ILLEGAL word's effect. -/
theorem illegalWordCompletesWithCauseSeven : Obligations.IllegalWordCompletesWithCauseSeven :=
  fun s _ _ hcomplete hillegal => (step_completing hcomplete).trans (completeCommand_illegal hillegal s)

/-- The codes of R104 and the class of each. -/
theorem causeCode_range_and_class (c : Cause) :
    (causeCode c).toNat ≤ 7 ∧ 1 ≤ (causeCode c).toNat ∧
      (causeClass c).toNat = (if (causeCode c).toNat ≤ 3 then 1 else if (causeCode c).toNat ≤ 6 then 2 else 3) := by
  cases c <;> decide

/-- Settles O34: a command that sets ERR ends by `failCommand`, since the two successful ends keep ERR. -/
theorem errorsChangeStatusAndInfoOnly : Obligations.ErrorsChangeStatusAndInfoOnly := by
  intro w s t hclear h herr
  rcases completeCommand_cases w s with ⟨c, x, e⟩ | ⟨rule, l, m, r, _, _, e⟩ | ⟨_, _, e⟩ <;> cases e.symm.trans h
  · exact ⟨c, x, rfl, causeCode_range_and_class c⟩
  · cases hclear.symm.trans herr
  · cases hclear.symm.trans herr

/-! ## How long an error stays -/

theorem State.TickOf.errInfo {u s : State} (h : u.TickOf s) : u.errInfo = s.errInfo := by
  obtain ⟨_, _, _, rfl⟩ := h
  rfl

theorem hostWrite_errInfo {off : Offset} {s : State} (v : Word)
    (h : ¬ (regAt s.params off = .cmd ∧ s.status.busy = false)) : (hostWrite off v s).errInfo = s.errInfo := by
  rcases hostWrite_cases off v s with ⟨hcmd, hbusy, _⟩ | ⟨_, _, e⟩ | ⟨_, _, e⟩ | ⟨_, _, e⟩
  · exact absurd ⟨hcmd, hbusy⟩ h
  · rw [e, dropWrite_errInfo]
  · obtain ⟨_, _, _, hinfo, _⟩ := writeReg_frame (regAt s.params off) v s
    rw [e, hinfo]
  · rw [e]

@[simp] theorem pollWait_errInfo (s : State) : (pollWait s).errInfo = s.errInfo := by
  unfold pollWait
  split <;> rfl

/-- Only a reset, an acceptance and a completion write ERRINFO (R31). -/
theorem step_errInfo {s t : State} (h : step s = .next t) (hreset : ¬ s.Resetting) (haccept : ∀ v, ¬ s.Accepting v)
    (hcomplete : ∀ w, ¬ s.Completing w) : t.errInfo = s.errInfo := by
  rcases step_next_cases h with ⟨w, hw, _⟩ | ⟨u, hu, ⟨_, rfl⟩ | ⟨x, hx, hp⟩⟩
  · exact absurd hw (hcomplete w)
  · exact hu.errInfo
  rw [← hu.errInfo]
  rcases performInput_cases hp with ⟨off, v, rfl, rfl⟩ | ⟨off, v, rfl⟩ | ⟨_, rfl⟩ | ⟨rfl, _⟩ | ⟨_, rfl⟩
  · refine hostWrite_errInfo v fun ⟨hcmd, hbusy⟩ => haccept v ⟨off, hx, ?_, ?_⟩
    · rw [← hu.params, hcmd]
    · rw [← hu.status, hbusy]
  · rfl
  · exact pollWait_errInfo u
  · exact absurd hx hreset
  · rfl

/-- No command runs while ERR is set: acceptance clears it (R59). -/
theorem State.Inv.idle_of_err {s : State} (h : s.Inv) (herr : s.status.err = true) :
    s.status.busy = false ∧ s.phase = .idle := by
  have hbusy : s.status.busy = false := by
    refine Bool.eq_false_iff.mpr fun hb => ?_
    cases (h.status.busy hb).2.symm.trans herr
  exact ⟨hbusy, (h.phase.idle_of_not_busy hbusy).1⟩

/-- Settles O53: the block is idle, so the step neither drops a write nor completes a command. -/
theorem errorStatusStaysUntilTheNextCommand : Obligations.ErrorStatusStaysUntilTheNextCommand := by
  intro s t hinv herr h hreset haccept
  obtain ⟨hbusy, hidle⟩ := hinv.idle_of_err herr
  have hcomplete (w : Word) : ¬ s.Completing w := fun ⟨hphase, _⟩ => by cases hphase.symm.trans hidle
  have hinfo := step_errInfo h hreset haccept hcomplete
  obtain ⟨hdone, _⟩ := hinv.status.error herr
  rcases step_status_cases h with ⟨hr, _⟩ | ⟨v, ha, _⟩ | ⟨⟨hb, _⟩, _⟩ | ⟨_, hstatus | ⟨w, hw, _⟩⟩
  · exact absurd hr hreset
  · exact absurd ha (haccept v)
  · cases hb.symm.trans hbusy
  · rw [hstatus]
    exact ⟨herr, rfl, rfl, hdone, hinfo⟩
  · exact absurd hw (hcomplete w)

/-! ## The block at rest -/

theorem step_at_rest {s : State} (hphase : s.phase = .idle) (hinputs : s.inputs = []) : step s = .next s :=
  (step_idle hphase).trans (arrive_nil hinputs)

/-- Settles O9: an idle block's step is its arrival, and the reset state is idle with nothing to arrive. -/
theorem idleBlockKeepsItsState : Obligations.IdleBlockKeepsItsState :=
  ⟨fun _ => step_at_rest, fun _ => step_at_rest rfl rfl⟩

end Sys2Proof.Machine
end

section
/-! PROOF. Reset (spec/70_reset_and_hazards.md R126, R127): every register but ID and PARAM reads 0 in a block
just reset (O45). -/

namespace Sys2Proof.Machine

/-! ## The registers of a block just reset -/

theorem resetBlock_regValue {r : Reg} (hid : r ≠ .id) (hparam : r ≠ .param) (s : State) : (resetBlock s).regValue r = 0 := by
  cases r with
  | id => exact absurd rfl hid
  | param => exact absurd rfl hparam
  | status => exact (by decide : Status.cleared.word = 0)
  | rule j => exact congrArg (BitVec.setWidth 32) (List.getElem?_getD_replicate_default_eq ..)
  | aData k => exact List.getElem?_getD_replicate_default_eq ..
  | bData k => exact List.getElem?_getD_replicate_default_eq ..
  | _ => rfl

/-- ID and PARAM keep their constants, each at its own offset, and no other offset reaches them. -/
theorem resetBlock_peek (s : State) (off : Offset) :
    (resetBlock s).peek off =
      if wordOffset off = 0x000 then idValue else if wordOffset off = 0x004 then paramValue s.params else 0 := by
  rw [State.peek, resetBlock_params]
  split_ifs with hid hparam
  · rw [regAt_eq_controlReg s.params hid (by decide)]
    rfl
  · rw [regAt_eq_controlReg s.params hparam (by decide)]
    rfl
  · exact resetBlock_regValue (regAt_ne nofun hid) (regAt_ne nofun hparam) s

/-! ## The step that resets -/

/-- A step that resets does so whatever runs: the reset is its arrival, and no command completes in it. -/
theorem step_resetting {s : State} (h : s.Resetting) : ∃ u, u.TickOf s ∧ step s = .next (resetBlock u) := by
  obtain ⟨t, ht⟩ := step_next (s := s) fun _ _ _ ha => by cases h.symm.trans ha
  rcases step_next_cases ht with ⟨_, hw, _⟩ | ⟨u, hu, ⟨hnone, _⟩ | ⟨_, hx, hp⟩⟩
  · cases h.symm.trans hw.arriving
  · cases h.symm.trans hnone
  · cases h.symm.trans hx
    exact ⟨u, hu, ht.trans hp.symm⟩

/-- Settles O45: the step answers `resetBlock` of a state with the block's sizes. -/
theorem resetClearsEveryRegister : Obligations.ResetClearsEveryRegister := by
  intro s h
  obtain ⟨u, hu, hstep⟩ := step_resetting h
  rw [← hu.params]
  exact ⟨resetBlock u, hstep, rfl, rfl, rfl, resetBlock_peek u, rfl, rfl, rfl⟩

end Sys2Proof.Machine
end
